-- ==== Sys2Proof/Word.lean ====
section
/-! DEFINITION. The 32-bit word of T10, its two readings and the narrowing of an integer to it
(spec/00_scope.md R9, R10), and the widths of a register index and of a classification key. -/

namespace Sys2Proof

/-- A 32-bit pattern, bit 31 most significant: an instruction word, a general register, a data
memory word, an extended immediate (R6, R7, R9). -/
abbrev Word := BitVec 32

/-- The 5-bit index of a general register, 0 to 31 (R21). -/
abbrev RegIdx := BitVec 5

/-- The classification key, the 11 most significant bits of a word (R81). -/
abbrev Key := BitVec 11

/-- `sint(v)`: the signed two's-complement reading of a word (R10). -/
abbrev sint (v : Word) : Int := v.toInt

/-- `uint(v)`: the unsigned reading of a word (R10). -/
abbrev uint (v : Word) : Nat := v.toNat

/-- `wrap32(n)`: the pattern whose unsigned reading is `n mod 2^32` (R10, decision D1 of the
spec: arithmetic wraps around). -/
abbrev wrap32 (n : Int) : Word := BitVec.ofInt 32 n

end Sys2Proof
end

