-- ==== Sys2Proof/Config.lean ====
section
/-! DEFINITION. The constants of T10 (spec/00_scope.md R6) and the two parameters of a run that
the spec leaves to the embedding driver (R8, R38; decisions D8 and D12). The parameters are plain
data that State carries and no step changes, so every statement about all states is a statement
about every setting of them. -/

namespace Sys2Proof

/-- The address of the first input word (R6, R126): "base 96, stride 4". -/
def Config.baseAddress : Int := 96

/-- The address stride from one word to the next (R6, R126). -/
def Config.stride : Int := 4

/-- The largest effective address that is not out of range (R53, decision D9). -/
def Config.maxAddress : Int := 2 ^ 31 - 1

/-- The domain of the parameter LOAD_UNDEFINED (R8, R55). -/
inductive LoadUndefined where
  /-- LDUR at a legal address that holds no word raises E_UNDEFINED_LOAD. -/
  | fault
  /-- LDUR at a legal address that holds no word reads 0 and defines nothing. -/
  | zero
  deriving DecidableEq, Repr

/-- The configuration of a run (R8, R38). The defaults are those the spec recommends. -/
structure RunConfig where
  /-- MAX_CYCLES: how many instructions may complete; `none` sets no bound (R153). -/
  maxCycles : Option Nat := none
  /-- LOAD_UNDEFINED: what LDUR does where data memory holds no word (R55). -/
  loadUndefined : LoadUndefined := .fault
  deriving DecidableEq, Repr

end Sys2Proof
end

