-- ==== Sys2Proof/Syntax.lean ====
section
/-! DEFINITION. The 19 instructions of T10, one constructor per row of spec/opcode_table.json,
each carrying every operand field of its format (spec/30_encoding.md R72 to R78), and the
instruction record (spec/40_decode_classify.md R112) in the form of the sum type that R112 allows.

Fields the execution ignores (`shamt` of ADD, `rm` and `rn` of the shifts, `op2`, the IM fields)
are carried all the same (R84). The signed fields hold the 32-bit pattern after sign extension, as
R112 gives them. -/

namespace Sys2Proof

/-- The nine values of a record's `format` (R70). -/
inductive Format where
  | R | I | D | B | CB | IM | NOP | BREAK | INVALID
  deriving DecidableEq, Repr

/-- The 19 mnemonics of the key table (R85), in the table's order. -/
inductive Mnemonic where
  | B | AND | ADD | ADDI | ORR | CBZ | CBNZ | SUB | SUBI | MOVZ
  | LSR | LSL | ASR | EOR | MOVK | STUR | LDUR | NOP | BREAK
  deriving DecidableEq, Repr

/-- An instruction: the rows of spec/opcode_table.json in the table's order. -/
inductive Instr where
  /-- B, unconditional branch by `offset` instruction positions (R75, R211). -/
  | b (offset : Word)
  /-- AND, bitwise and (R72, R173). -/
  | and (rm : RegIdx) (shamt : BitVec 6) (rn rd : RegIdx)
  /-- ADD, add registers (R72, R171). -/
  | add (rm : RegIdx) (shamt : BitVec 6) (rn rd : RegIdx)
  /-- ADDI, add a sign-extended immediate (R74, R176). -/
  | addi (imm : Word) (rn rd : RegIdx)
  /-- ORR, bitwise inclusive or (R72, R174). -/
  | orr (rm : RegIdx) (shamt : BitVec 6) (rn rd : RegIdx)
  /-- CBZ, branch if the register `cond` holds zero (R76, R212). -/
  | cbz (offset : Word) (cond : RegIdx)
  /-- CBNZ, branch if the register `cond` does not hold zero (R76, R213). -/
  | cbnz (offset : Word) (cond : RegIdx)
  /-- SUB, subtract registers (R72, R172). -/
  | sub (rm : RegIdx) (shamt : BitVec 6) (rn rd : RegIdx)
  /-- SUBI, subtract a sign-extended immediate (R74, R177). -/
  | subi (imm : Word) (rn rd : RegIdx)
  /-- MOVZ, decoded and without effect (R77, R220). -/
  | movz (shiftcode : BitVec 2) (field : BitVec 16) (rd : RegIdx)
  /-- LSR, logical shift right of `rd` in place (R72, R192). -/
  | lsr (rm : RegIdx) (shamt : BitVec 6) (rn rd : RegIdx)
  /-- LSL, shift left of `rd` in place (R72, R191). -/
  | lsl (rm : RegIdx) (shamt : BitVec 6) (rn rd : RegIdx)
  /-- ASR, arithmetic shift right of `rd` in place (R72, R193). -/
  | asr (rm : RegIdx) (shamt : BitVec 6) (rn rd : RegIdx)
  /-- EOR, bitwise exclusive or (R72, R175). -/
  | eor (rm : RegIdx) (shamt : BitVec 6) (rn rd : RegIdx)
  /-- MOVK, decoded and without effect (R77, R221). -/
  | movk (shiftcode : BitVec 2) (field : BitVec 16) (rd : RegIdx)
  /-- STUR, store a register (R73, R202). -/
  | stur (dtaddr : BitVec 9) (op2 : BitVec 2) (rn rt : RegIdx)
  /-- LDUR, load a register (R73, R201). -/
  | ldur (dtaddr : BitVec 9) (op2 : BitVec 2) (rn rt : RegIdx)
  /-- NOP (R78, R222): no operand fields; bits 20..0 stay in the record's `raw`. -/
  | nop
  /-- BREAK (R78, R223): no operand fields; bits 20..0 stay in the record's `raw`. -/
  | brk
  deriving DecidableEq, Repr

/-- What DEC makes of one word: an instruction, or the INVALID record with the offending key
(R87, R123). -/
inductive Decoded where
  | instr (i : Instr)
  | invalid (key : Key)
  deriving DecidableEq, Repr

/-- The instruction record of PROG (R112): the word as given, its decoding and its address. The
remaining fields of R112 are read off these three in Sys2Proof/Decode.lean. -/
structure Record where
  raw : Word
  body : Decoded
  address : Int
  deriving DecidableEq, Repr

/-- The operand fields of R112, each 0 where the format lacks it (R83). -/
structure Fields where
  rm : RegIdx := 0
  shamt : BitVec 6 := 0
  rn : RegIdx := 0
  rd : RegIdx := 0
  rt : RegIdx := 0
  dtaddr : BitVec 9 := 0
  op2 : BitVec 2 := 0
  imm : Word := 0
  offset : Word := 0
  cond : RegIdx := 0
  shiftcode : BitVec 2 := 0
  field : BitVec 16 := 0
  deriving DecidableEq, Repr

end Sys2Proof
end

