-- ==== Sys2Proof/WellFormed.lean ====
section
/-! DEFINITION. Which terms of Instr an encoding exists for. Every field but the three signed ones
has exactly its encoded width; a signed field is held after extension to 32 bits and must be in the
range of its encoded width (spec/30_encoding.md R74, R75, R76, R80). -/

namespace Sys2Proof

/-- `v` is the sign extension of an `n`-bit field: its signed reading lies in -2^(n-1) .. 2^(n-1)-1. -/
def fitsSigned (n : Nat) (v : Word) : Bool :=
  decide (-(2 ^ (n - 1) : Int) ≤ sint v) && decide (sint v < (2 ^ (n - 1) : Int))

/-- The instructions that have an encoding (R74: 12-bit immediates; R75: 26-bit offsets; R76:
19-bit offsets). -/
def WellFormed : Instr → Bool
  | .b offset => fitsSigned 26 offset
  | .and _ _ _ _ => true
  | .add _ _ _ _ => true
  | .addi imm _ _ => fitsSigned 12 imm
  | .orr _ _ _ _ => true
  | .cbz offset _ => fitsSigned 19 offset
  | .cbnz offset _ => fitsSigned 19 offset
  | .sub _ _ _ _ => true
  | .subi imm _ _ => fitsSigned 12 imm
  | .movz _ _ _ => true
  | .lsr _ _ _ _ => true
  | .lsl _ _ _ _ => true
  | .asr _ _ _ _ => true
  | .eor _ _ _ _ => true
  | .movk _ _ _ => true
  | .stur _ _ _ _ => true
  | .ldur _ _ _ _ => true
  | .nop => true
  | .brk => true

end Sys2Proof
end

