-- ==== Sys2Proof/Decode.lean ====
section
/-! DEFINITION. The classifier CLS and the decoder DEC (spec/40_decode_classify.md R110 to R122),
the fields of the instruction record (R112), the encoder written from the same layouts
(spec/30_encoding.md R72 to R77, R85), and the text form of an input word (spec/00_scope.md R9). -/

namespace Sys2Proof

/-! ### Bit fields -/

/-- `word[lo+len-1:lo]` (R11). -/
def bitsAt (lo len : Nat) (w : Word) : BitVec len := w.extractLsb' lo len

/-- `sext_N` (R11, R79): the field's top bit is copied into every higher bit. -/
def sext {n : Nat} (v : BitVec n) : Word := v.signExtend 32

/-- The classification key `word[31:21]` (R81). -/
def keyOf (w : Word) : Key := bitsAt 21 11 w

/-! ### CLS -/

/-- The row of the key table a key selects, and its format (R110, R111): a total function of the
key, `(none, INVALID)` outside the 19 ranges. -/
def cls (key : Key) : Option Mnemonic × Format :=
  let k := key.toNat
  if 160 ≤ k ∧ k ≤ 191 then (some .B, .B)
  else if k = 1104 then (some .AND, .R)
  else if k = 1112 then (some .ADD, .R)
  else if 1160 ≤ k ∧ k ≤ 1161 then (some .ADDI, .I)
  else if k = 1360 then (some .ORR, .R)
  else if 1440 ≤ k ∧ k ≤ 1447 then (some .CBZ, .CB)
  else if 1448 ≤ k ∧ k ≤ 1455 then (some .CBNZ, .CB)
  else if k = 1624 then (some .SUB, .R)
  else if 1672 ≤ k ∧ k ≤ 1673 then (some .SUBI, .I)
  else if 1684 ≤ k ∧ k ≤ 1687 then (some .MOVZ, .IM)
  else if k = 1690 then (some .LSR, .R)
  else if k = 1691 then (some .LSL, .R)
  else if k = 1692 then (some .ASR, .R)
  else if k = 1872 then (some .EOR, .R)
  else if 1940 ≤ k ∧ k ≤ 1943 then (some .MOVK, .IM)
  else if k = 1984 then (some .STUR, .D)
  else if k = 1986 then (some .LDUR, .D)
  else if k = 0 then (some .NOP, .NOP)
  else if k = 2038 then (some .BREAK, .BREAK)
  else (none, .INVALID)

/-- The column "Key range" of the key table (R85): the first and the last key of each row. -/
def keyRange : Mnemonic → Nat × Nat
  | .B => (160, 191)
  | .AND => (1104, 1104)
  | .ADD => (1112, 1112)
  | .ADDI => (1160, 1161)
  | .ORR => (1360, 1360)
  | .CBZ => (1440, 1447)
  | .CBNZ => (1448, 1455)
  | .SUB => (1624, 1624)
  | .SUBI => (1672, 1673)
  | .MOVZ => (1684, 1687)
  | .LSR => (1690, 1690)
  | .LSL => (1691, 1691)
  | .ASR => (1692, 1692)
  | .EOR => (1872, 1872)
  | .MOVK => (1940, 1943)
  | .STUR => (1984, 1984)
  | .LDUR => (1986, 1986)
  | .NOP => (0, 0)
  | .BREAK => (2038, 2038)

/-- The columns `match` and `mask` of the key table (R85): a word `w` selects the row exactly when
`w & mask = match`. CLS does not use them. -/
def matchMask : Mnemonic → Word × Word
  | .B => (0x14000000, 0xFC000000)
  | .AND => (0x8A000000, 0xFFE00000)
  | .ADD => (0x8B000000, 0xFFE00000)
  | .ADDI => (0x91000000, 0xFFC00000)
  | .ORR => (0xAA000000, 0xFFE00000)
  | .CBZ => (0xB4000000, 0xFF000000)
  | .CBNZ => (0xB5000000, 0xFF000000)
  | .SUB => (0xCB000000, 0xFFE00000)
  | .SUBI => (0xD1000000, 0xFFC00000)
  | .MOVZ => (0xD2800000, 0xFF800000)
  | .LSR => (0xD3400000, 0xFFE00000)
  | .LSL => (0xD3600000, 0xFFE00000)
  | .ASR => (0xD3800000, 0xFFE00000)
  | .EOR => (0xEA000000, 0xFFE00000)
  | .MOVK => (0xF2800000, 0xFF800000)
  | .STUR => (0xF8000000, 0xFFE00000)
  | .LDUR => (0xF8400000, 0xFFE00000)
  | .NOP => (0x00000000, 0xFFE00000)
  | .BREAK => (0xFEC00000, 0xFFE00000)

/-! ### DEC -/

/-- The instruction of a row of the key table with its fields sliced from a word by the format of the
row (R113 step 5, R115 to R121). -/
def sliceAs (m : Mnemonic) (w : Word) : Instr :=
  match m with
  | .B => .b (sext (bitsAt 0 26 w))
  | .AND => .and (bitsAt 16 5 w) (bitsAt 10 6 w) (bitsAt 5 5 w) (bitsAt 0 5 w)
  | .ADD => .add (bitsAt 16 5 w) (bitsAt 10 6 w) (bitsAt 5 5 w) (bitsAt 0 5 w)
  | .ADDI => .addi (sext (bitsAt 10 12 w)) (bitsAt 5 5 w) (bitsAt 0 5 w)
  | .ORR => .orr (bitsAt 16 5 w) (bitsAt 10 6 w) (bitsAt 5 5 w) (bitsAt 0 5 w)
  | .CBZ => .cbz (sext (bitsAt 5 19 w)) (bitsAt 0 5 w)
  | .CBNZ => .cbnz (sext (bitsAt 5 19 w)) (bitsAt 0 5 w)
  | .SUB => .sub (bitsAt 16 5 w) (bitsAt 10 6 w) (bitsAt 5 5 w) (bitsAt 0 5 w)
  | .SUBI => .subi (sext (bitsAt 10 12 w)) (bitsAt 5 5 w) (bitsAt 0 5 w)
  | .MOVZ => .movz (bitsAt 21 2 w) (bitsAt 5 16 w) (bitsAt 0 5 w)
  | .LSR => .lsr (bitsAt 16 5 w) (bitsAt 10 6 w) (bitsAt 5 5 w) (bitsAt 0 5 w)
  | .LSL => .lsl (bitsAt 16 5 w) (bitsAt 10 6 w) (bitsAt 5 5 w) (bitsAt 0 5 w)
  | .ASR => .asr (bitsAt 16 5 w) (bitsAt 10 6 w) (bitsAt 5 5 w) (bitsAt 0 5 w)
  | .EOR => .eor (bitsAt 16 5 w) (bitsAt 10 6 w) (bitsAt 5 5 w) (bitsAt 0 5 w)
  | .MOVK => .movk (bitsAt 21 2 w) (bitsAt 5 16 w) (bitsAt 0 5 w)
  | .STUR => .stur (bitsAt 12 9 w) (bitsAt 10 2 w) (bitsAt 5 5 w) (bitsAt 0 5 w)
  | .LDUR => .ldur (bitsAt 12 9 w) (bitsAt 10 2 w) (bitsAt 5 5 w) (bitsAt 0 5 w)
  | .NOP => .nop
  | .BREAK => .brk

/-- DEC (R113): classify the key, then slice the word by the row. It answers for every word (R122); a
word whose key is in no row is the INVALID record (R87), and no word is skipped (R114). -/
def dec (w : Word) : Decoded :=
  match (cls (keyOf w)).1 with
  | some m => .instr (sliceAs m w)
  | none => .invalid (keyOf w)

/-- The instruction a word decodes to, `none` for an INVALID word (R87). -/
def decode (w : Word) : Option Instr :=
  match dec w with
  | .instr i => some i
  | .invalid _ => none

/-- The decoder on an instruction of the opcode table given as a number of `nbits` bits, bit 0 the
least significant of the word; the bits above `nbits` are 0. -/
def decodeTableWord (nbits w : Nat) : Option Instr :=
  decode (BitVec.ofNat 32 (w % 2 ^ nbits))

/-! ### The fields of the instruction record -/

/-- The row of the key table an instruction belongs to (R85). -/
def Instr.mnemonic : Instr → Mnemonic
  | .b _ => .B
  | .and _ _ _ _ => .AND
  | .add _ _ _ _ => .ADD
  | .addi _ _ _ => .ADDI
  | .orr _ _ _ _ => .ORR
  | .cbz _ _ => .CBZ
  | .cbnz _ _ => .CBNZ
  | .sub _ _ _ _ => .SUB
  | .subi _ _ _ => .SUBI
  | .movz _ _ _ => .MOVZ
  | .lsr _ _ _ _ => .LSR
  | .lsl _ _ _ _ => .LSL
  | .asr _ _ _ _ => .ASR
  | .eor _ _ _ _ => .EOR
  | .movk _ _ _ => .MOVK
  | .stur _ _ _ _ => .STUR
  | .ldur _ _ _ _ => .LDUR
  | .nop => .NOP
  | .brk => .BREAK

/-- The operand fields of an instruction, 0 where its format has no such field (R83, R112). -/
def Instr.fields : Instr → Fields
  | .b offset => { offset := offset }
  | .and rm shamt rn rd => { rm := rm, shamt := shamt, rn := rn, rd := rd }
  | .add rm shamt rn rd => { rm := rm, shamt := shamt, rn := rn, rd := rd }
  | .addi imm rn rd => { imm := imm, rn := rn, rd := rd }
  | .orr rm shamt rn rd => { rm := rm, shamt := shamt, rn := rn, rd := rd }
  | .cbz offset cond => { offset := offset, cond := cond }
  | .cbnz offset cond => { offset := offset, cond := cond }
  | .sub rm shamt rn rd => { rm := rm, shamt := shamt, rn := rn, rd := rd }
  | .subi imm rn rd => { imm := imm, rn := rn, rd := rd }
  | .movz shiftcode field rd => { shiftcode := shiftcode, field := field, rd := rd }
  | .lsr rm shamt rn rd => { rm := rm, shamt := shamt, rn := rn, rd := rd }
  | .lsl rm shamt rn rd => { rm := rm, shamt := shamt, rn := rn, rd := rd }
  | .asr rm shamt rn rd => { rm := rm, shamt := shamt, rn := rn, rd := rd }
  | .eor rm shamt rn rd => { rm := rm, shamt := shamt, rn := rn, rd := rd }
  | .movk shiftcode field rd => { shiftcode := shiftcode, field := field, rd := rd }
  | .stur dtaddr op2 rn rt => { dtaddr := dtaddr, op2 := op2, rn := rn, rt := rt }
  | .ldur dtaddr op2 rn rt => { dtaddr := dtaddr, op2 := op2, rn := rn, rt := rt }
  | .nop => {}
  | .brk => {}

/-- The record DEC makes of a word (R112, R113), with the address LDR gives it (R126). -/
def recordOf (address : Int) (w : Word) : Record :=
  { raw := w, body := dec w, address := address }

/-- `key` of R112. -/
def Record.key (r : Record) : Key := keyOf r.raw

/-- `mnemonic` of R112, `none` for INVALID. -/
def Record.mnemonic (r : Record) : Option Mnemonic :=
  match r.body with
  | .instr i => some i.mnemonic
  | .invalid _ => none

/-- The format of a row of the key table (R85). -/
def Mnemonic.format : Mnemonic → Format
  | .B => .B
  | .AND | .ADD | .ORR | .SUB | .LSR | .LSL | .ASR | .EOR => .R
  | .ADDI | .SUBI => .I
  | .CBZ | .CBNZ => .CB
  | .MOVZ | .MOVK => .IM
  | .STUR | .LDUR => .D
  | .NOP => .NOP
  | .BREAK => .BREAK

/-- `format` of R112. -/
def Record.format (r : Record) : Format :=
  match r.mnemonic with
  | some m => m.format
  | none => .INVALID

/-- The width of a format's native opcode (R82); the key's width where there is no layout (R78,
decision D5). -/
def Format.opcodeWidth : Format → Nat
  | .R | .D | .NOP | .BREAK | .INVALID => 11
  | .I => 10
  | .B => 6
  | .CB => 8
  | .IM => 9

/-- `opcode` of R112: the top bits of the word at the width of its format (R82). -/
def Record.opcode (r : Record) : Nat := uint r.raw / 2 ^ (32 - r.format.opcodeWidth)

/-- The operand fields of a record, all 0 for INVALID (R83, R121). -/
def Record.fields (r : Record) : Fields :=
  match r.body with
  | .instr i => i.fields
  | .invalid _ => {}

/-- The record ends the program: its format is BREAK (R127, R152). -/
def Record.isBreak (r : Record) : Bool :=
  match r.body with
  | .instr .brk => true
  | _ => false

/-! ### The encoder -/

/-- R layout: opcode, rm, shamt, rn, rd (R72). The fields tile the word (R90), so the word is the sum
of the fields at their places. -/
def packR (opcode : BitVec 11) (rm : RegIdx) (shamt : BitVec 6) (rn rd : RegIdx) : Word :=
  BitVec.ofNat 32 (opcode.toNat * 2 ^ 21 + rm.toNat * 2 ^ 16 + shamt.toNat * 2 ^ 10 +
    rn.toNat * 2 ^ 5 + rd.toNat)

/-- D layout: opcode, dtaddr, op2, rn, rt (R73). -/
def packD (opcode : BitVec 11) (dtaddr : BitVec 9) (op2 : BitVec 2) (rn rt : RegIdx) : Word :=
  BitVec.ofNat 32 (opcode.toNat * 2 ^ 21 + dtaddr.toNat * 2 ^ 12 + op2.toNat * 2 ^ 10 +
    rn.toNat * 2 ^ 5 + rt.toNat)

/-- I layout: opcode, the low 12 bits of the immediate, rn, rd (R74). -/
def packI (opcode : BitVec 10) (imm : Word) (rn rd : RegIdx) : Word :=
  BitVec.ofNat 32 (opcode.toNat * 2 ^ 22 + imm.toNat % 2 ^ 12 * 2 ^ 10 + rn.toNat * 2 ^ 5 + rd.toNat)

/-- B layout: opcode, the low 26 bits of the offset (R75). -/
def packB (opcode : BitVec 6) (offset : Word) : Word :=
  BitVec.ofNat 32 (opcode.toNat * 2 ^ 26 + offset.toNat % 2 ^ 26)

/-- CB layout: opcode, the low 19 bits of the offset, cond (R76). -/
def packCB (opcode : BitVec 8) (offset : Word) (cond : RegIdx) : Word :=
  BitVec.ofNat 32 (opcode.toNat * 2 ^ 24 + offset.toNat % 2 ^ 19 * 2 ^ 5 + cond.toNat)

/-- IM layout: opcode, shiftcode, field, rd (R77). -/
def packIM (opcode : BitVec 9) (shiftcode : BitVec 2) (field : BitVec 16) (rd : RegIdx) : Word :=
  BitVec.ofNat 32 (opcode.toNat * 2 ^ 23 + shiftcode.toNat * 2 ^ 21 + field.toNat * 2 ^ 5 + rd.toNat)

/-- The word of a well-formed instruction, with the native opcodes of R85; the customary words of
NOP and BREAK, whose bits 20..0 are free (R88, R89). -/
def encode : Instr → Word
  | .b offset => packB 5 offset
  | .and rm shamt rn rd => packR 1104 rm shamt rn rd
  | .add rm shamt rn rd => packR 1112 rm shamt rn rd
  | .addi imm rn rd => packI 580 imm rn rd
  | .orr rm shamt rn rd => packR 1360 rm shamt rn rd
  | .cbz offset cond => packCB 180 offset cond
  | .cbnz offset cond => packCB 181 offset cond
  | .sub rm shamt rn rd => packR 1624 rm shamt rn rd
  | .subi imm rn rd => packI 836 imm rn rd
  | .movz shiftcode field rd => packIM 421 shiftcode field rd
  | .lsr rm shamt rn rd => packR 1690 rm shamt rn rd
  | .lsl rm shamt rn rd => packR 1691 rm shamt rn rd
  | .asr rm shamt rn rd => packR 1692 rm shamt rn rd
  | .eor rm shamt rn rd => packR 1872 rm shamt rn rd
  | .movk shiftcode field rd => packIM 485 shiftcode field rd
  | .stur dtaddr op2 rn rt => packD 1984 dtaddr op2 rn rt
  | .ldur dtaddr op2 rn rt => packD 1986 dtaddr op2 rn rt
  | .nop => 0x00000000
  | .brk => 0xFEC00000

/-! ### The text form of an input word -/

/-- The value of a line of binary digits read from bit 31 down (R9), `none` if some character is
not a binary digit. -/
def binaryValue : Nat → List Char → Option Nat
  | acc, [] => some acc
  | acc, c :: cs =>
    if c = '0' then binaryValue (2 * acc) cs
    else if c = '1' then binaryValue (2 * acc + 1) cs
    else none

/-- The word of a line of exactly 32 binary digits, character index `c` holding bit `31 - c` (R9,
R125); `none` for a malformed line (R262). -/
def wordOfLine (line : List Char) : Option Word :=
  if line.length = 32 then (binaryValue 0 line).map (BitVec.ofNat 32) else none

end Sys2Proof
end

