-- ==== Sys2Proof/Machine/State.lean ====
section
/-! DEFINITION. The whole state of T10 (spec/10_state.md R20) as plain data, the reasons a run
stops, and the state after a reset that presents no input word. -/

namespace Sys2Proof.Machine

/-- Data memory DM (R31): the defined words in rising order of address. An address that is not
listed is undefined, so a listed word is never what an unlisted address reads as. Cells are words,
not bytes: T10 has no byte order (R57). -/
abbrev Memory := List (Nat × Word)

/-- The fatal causes of R251, the effective address kept where there is one. -/
inductive Cause where
  /-- Fetch at a position outside 0..b (R151). -/
  | positionRange
  /-- The bound MAX_CYCLES is reached (R153). -/
  | watchdog
  /-- An INVALID record is fetched (R154, R224). -/
  | invalidInstruction
  /-- LDUR or STUR below address 0 (R53). -/
  | addressNegative (ea : Int)
  /-- LDUR or STUR above 2^31 - 1 (R53). -/
  | addressRange (ea : Int)
  /-- LDUR or STUR at an address that is no multiple of 4 (R53). -/
  | addressUnaligned (ea : Int)
  /-- LDUR at a legal address that holds no word, under LOAD_UNDEFINED = fault (R55). -/
  | undefinedLoad (ea : Int)
  /-- Listed by the spec and raised by nothing: a register index has 5 bits (R254). -/
  | registerIndex
  deriving DecidableEq, Repr

/-- The fault record (R29). -/
structure FaultRecord where
  cause : Cause
  address : Int
  cycle : Nat
  deriving DecidableEq, Repr

/-- Why a load is refused (R131, R263). -/
inductive LoadError where
  | missingBreak
  deriving DecidableEq, Repr

/-- The run state (R28). -/
inductive RunState where
  | running
  | halted
  | faulted (record : FaultRecord)
  | refused (error : LoadError)
  deriving DecidableEq, Repr

/-- One trace record (R32, R156, R236). -/
structure TraceRecord where
  cycle : Nat
  pc : Int
  inst : Record
  regs : Vector Word 32
  dm : Memory
  deriving DecidableEq, Repr

/-- The state of T10 (R20) and the parameters of the run (R38). The index `b` of the BREAK is the
last index of `prog` (R30), so it is computed, not stored. -/
structure State where
  /-- `x[0..31]` (R21). -/
  regs : Vector Word 32
  /-- The position, an integer without bound (R25); `pc` is computed from it. -/
  pos : Int
  /-- How many instructions have completed (R27). -/
  cycle : Nat
  /-- The run state and, inside it, the fault record (R28, R29). -/
  run : RunState
  /-- Data memory (R31). -/
  dm : Memory
  /-- The program store (R30). -/
  prog : List Record
  /-- The trace, oldest record first (R32). -/
  trace : List TraceRecord
  /-- MAX_CYCLES and LOAD_UNDEFINED (R8, R38). -/
  config : RunConfig
  deriving DecidableEq, Repr

/-- Why a step has no next state: the engine steps only while RUNNING (R28, R159, R266). All three
are safe: the spec gives no transition out of these run states. -/
inductive Fault where
  /-- Raised by `step` in HALTED: the run has ended normally. Safe. -/
  | halted
  /-- Raised by `step` in FAULTED: the run has ended on a fatal fault, whose record stands in
  `run`. Safe. -/
  | faulted
  /-- Raised by `step` in REFUSED: the load failed and the engine never starts. Safe. -/
  | loadRefused
  deriving DecidableEq, Repr

/-- What the model gives no meaning to. -/
inductive Refusal where
  /-- An instruction without a meaning in `exec`. Raised by nothing: every arm has its meaning. Safe. -/
  | notModelled (mnemonic : String)
  /-- Raised by the load of text lines for a line that is not 32 binary digits, which is outside T10
  (R262, decision D15). Safe. -/
  | malformedLine (index : Nat)
  deriving DecidableEq, Repr

/-- The state after a reset that presents the empty input: the load finds no BREAK and is refused
(R131), and no program is in place. The other fields, which the spec leaves undefined after a
refused load (R281 step 2), have the values of R37 for a load that succeeded
(notes/assumptions/1.md). -/
def State.reset : State :=
  { regs := Vector.replicate 32 0
    pos := 0
    cycle := 0
    run := .refused .missingBreak
    dm := []
    prog := []
    trace := []
    config := {} }

end Sys2Proof.Machine
end

