-- ==== Sys2Proof/Machine/Ops.lean ====
section
/-! DEFINITION. The named operations over registers, data memory, position and run state
(spec/00_scope.md R11), among them the taking of a fault (spec/60_exceptions.md R252). There is no
return from a fault (R250, R266). -/

namespace Sys2Proof.Machine

/-! ### Position and program counter -/

/-- The address of position `p`: `96 + 4*p` (R25, R126). -/
def addressOf (p : Int) : Int := Config.baseAddress + Config.stride * p

/-- The program counter (R25). -/
def State.pc (s : State) : Int := addressOf s.pos

/-- The index `b` of the BREAK in the program store (R30); -1 when no program is in place. -/
def State.breakIndex (s : State) : Int := (s.prog.length : Int) - 1

/-- `pos <- pos + delta` (R26, R157). -/
def advance (delta : Int) (s : State) : State := { s with pos := s.pos + delta }

/-- The record at the position, `none` outside 0..b (R151). -/
def fetch (s : State) : Option Record :=
  if 0 ≤ s.pos ∧ s.pos ≤ s.breakIndex then s.prog[s.pos.toNat]? else none

/-! ### General registers -/

/-- `x[i]` (R11). Every register is ordinary, register 31 included (R22). -/
def readReg (i : RegIdx) (s : State) : Word := s.regs[i.toNat]

/-- `x[i] <- v` (R11, R22). -/
def writeReg (i : RegIdx) (v : Word) (s : State) : State := { s with regs := s.regs.set i.toNat v }

/-! ### Faults and the end of a run -/

/-- Fault entry (R252): the run state takes the fault record (R29) and nothing else changes. -/
def raise (cause : Cause) (s : State) : State :=
  { s with run := .faulted { cause := cause, address := s.pc, cycle := s.cycle + 1 } }

/-- `run <- HALTED` (R152). -/
def halt (s : State) : State := { s with run := .halted }

/-! ### Data memory -/

/-- The word at an address, `none` where the address is undefined (R31). -/
def memGet : Memory → Nat → Option Word
  | [], _ => none
  | c :: cs, a => if c.1 = a then some c.2 else memGet cs a

/-- `DM[a] <- v` (R56): the word becomes defined or is replaced, no other address changes, and the
list stays in rising order. -/
def memPut : Memory → Nat → Word → Memory
  | [], a, v => [(a, v)]
  | c :: cs, a, v =>
    if a < c.1 then (a, v) :: c :: cs
    else if a = c.1 then (a, v) :: cs
    else c :: memPut cs a v

/-- Every address of the list lies above `a`. -/
def aboveAll (a : Nat) (m : Memory) : Bool := m.all fun c => decide (a < c.1)

/-- The canonical form of data memory: addresses strictly rising and all multiples of 4 (R31). -/
def memWf : Memory → Bool
  | [] => true
  | c :: cs => decide (c.1 % 4 = 0) && aboveAll c.1 cs && memWf cs

/-- The address check of R53, in its order (R54); `none` for a legal address. -/
def addressCheck (ea : Int) : Option Cause :=
  if ea < 0 then some (.addressNegative ea)
  else if ea > Config.maxAddress then some (.addressRange ea)
  else if ea % 4 ≠ 0 then some (.addressUnaligned ea)
  else none

/-- `MemRead(ea, 4)` (R11, R53, R55). -/
def memRead (ea : Int) (s : State) : Except Cause Word :=
  match addressCheck ea with
  | some cause => .error cause
  | none =>
    match memGet s.dm ea.toNat with
    | some v => .ok v
    | none =>
      match s.config.loadUndefined with
      | .fault => .error (.undefinedLoad ea)
      | .zero => .ok 0

/-- The store itself (R56), at an address already checked. -/
def storeWord (a : Nat) (v : Word) (s : State) : State := { s with dm := memPut s.dm a v }

/-- `MemWrite(ea, 4, v)` (R11, R53, R56). -/
def memWrite (ea : Int) (v : Word) (s : State) : Except Cause State :=
  match addressCheck ea with
  | some cause => .error cause
  | none => .ok (storeWord ea.toNat v s)

/-! ### Ends of an instruction -/

/-- The instruction is done and goes on to the next position (`delta` = 1, R26). -/
def done (s : State) : Host.Outcome State Fault Refusal := .next (advance 1 s)

/-- The instruction writes one register and is done (R170, R190, R201). -/
def doneWriting (rd : RegIdx) (v : Word) (s : State) : Host.Outcome State Fault Refusal :=
  .next (advance 1 (writeReg rd v s))

/-- The instruction is done and goes `delta` positions on (R210). -/
def doneBranching (delta : Int) (s : State) : Host.Outcome State Fault Refusal :=
  .next (advance delta s)

/-- The instruction ends the run on a fault, with nothing of it done (R158). -/
def doneFaulting (cause : Cause) (s : State) : Host.Outcome State Fault Refusal :=
  .next (raise cause s)

end Sys2Proof.Machine
end

