-- ==== Sys2Proof/Machine/Loader.lean ====
section
/-! DEFINITION. The load sequencer LDR (spec/40_decode_classify.md R125 to R133), the reset that
presents an input (spec/70_reset_and_hazards.md R280, R281), and the placing of one instruction
where the next fetch finds it. -/

namespace Sys2Proof.Machine

/-- The report L_UNCLASSIFIABLE(index, key) (R123, R261): an output to the host, no state. -/
structure Report where
  index : Nat
  key : Key
  deriving DecidableEq, Repr

/-- What LDR has built so far (R127). -/
structure LoadResult where
  prog : List Record
  dm : Memory
  reports : List Report
  breakSeen : Bool
  deriving DecidableEq, Repr

/-- LDR before the first word (R127). -/
def LoadResult.empty : LoadResult := { prog := [], dm := [], reports := [], breakSeen := false }

/-- The reports one record gives rise to (R123). -/
def reportsOf (index : Nat) (r : Record) : List Report :=
  match r.body with
  | .instr _ => []
  | .invalid key => [{ index := index, key := key }]

/-- LDR takes input word `i` (R127): an instruction up to and including the first BREAK, a data
word at its sequential address after it, whatever its key (R128). -/
def ldrWord (acc : LoadResult) (i : Nat) (w : Word) : LoadResult :=
  if acc.breakSeen then { acc with dm := memPut acc.dm (addressOf i).toNat w }
  else
    let r := recordOf (addressOf i) w
    { acc with prog := acc.prog ++ [r], reports := acc.reports ++ reportsOf i r,
               breakSeen := r.isBreak }

/-- LDR takes the remaining words, the first of which has index `i`. -/
def ldrFrom (acc : LoadResult) (i : Nat) : List Word → LoadResult
  | [] => acc
  | w :: ws => ldrFrom (ldrWord acc i w) (i + 1) ws

/-- LDR over the whole input (R127). Where `breakSeen` stays false the load is refused and R127 gives no
other result: what the other fields then hold is the model's (notes/assumptions/25.md). -/
def ldr (ws : List Word) : LoadResult := ldrFrom .empty 0 ws

/-- RESET(w[0..n-1]) (R281): the load is refused when no BREAK is found (R131), and otherwise the
state is that of R37. -/
def State.afterReset (config : RunConfig) (ws : List Word) : State :=
  let r := ldr ws
  if r.breakSeen then
    { State.reset with run := .running, dm := r.dm, prog := r.prog, config := config }
  else { State.reset with config := config }

/-- The words of a sequence of text lines, or the index of the first malformed line (R125, R262). -/
def wordsOfLines : Nat → List (List Char) → Except Nat (List Word)
  | _, [] => .ok []
  | i, line :: lines =>
    match wordOfLine line with
    | none => .error i
    | some w =>
      match wordsOfLines (i + 1) lines with
      | .error j => .error j
      | .ok ws => .ok (w :: ws)

/-- A reset from text lines: a malformed line is outside T10 and is refused (R262, decision D15). -/
def State.afterResetText (config : RunConfig) (lines : List (List Char)) :
    Host.Outcome State Fault Refusal :=
  match wordsOfLines 0 lines with
  | .error i => .refused (.malformedLine i)
  | .ok ws => .next (State.afterReset config ws)

/-- The bound MAX_CYCLES is set and reached (R153). -/
def watchdogExpired (s : State) : Bool :=
  match s.config.maxCycles with
  | none => false
  | some n => decide (n ≤ s.cycle)

/-- The position the next fetch is made at once an instruction is placed: the present one if the
program has it, else the entry position 0. -/
def placePosition (s : State) : Nat :=
  if 0 ≤ s.pos ∧ s.pos ≤ s.breakIndex then s.pos.toNat else 0

/-- What follows a record placed at position `n`: nothing after a BREAK, the rest of the program
otherwise, and a BREAK where there is no rest (R30). -/
def placeTail (s : State) (n : Nat) (r : Record) : List Record :=
  if r.isBreak then []
  else
    match s.prog.drop (n + 1) with
    | [] => [recordOf (addressOf ((n : Int) + 1)) (encode .brk)]
    | rest => rest

/-- The word `w` stands in the program where the next step fetches, the program still ends in one
BREAK, the engine is RUNNING and the watchdog has not expired. This stands for a load of such a
program from outside (notes/assumptions/2.md). -/
def placeWord (w : Word) (s : State) : State :=
  let n := placePosition s
  let r := recordOf (addressOf n) w
  { s with
    prog := s.prog.take n ++ r :: placeTail s n r
    pos := n
    run := .running
    config := if watchdogExpired s then { s.config with maxCycles := none } else s.config }

end Sys2Proof.Machine
end

