-- ==== Sys2Proof/Machine/Cycle.lean ====
section
/-! DEFINITION. The step of EXU in the order of spec/41_execution_cycle.md R159: fetch and position
check, halt, watchdog, INVALID, the instruction's own effect, count and trace. The instruction's
effect is an argument here; Sys2Proof/Machine/Step.lean supplies `exec`. -/

namespace Sys2Proof.Machine

/-- Step 3 of R159 on the state `t` an instruction leaves: count it, and append its trace record
with the address `pc` it was fetched at and the registers and memory it leaves (R156). -/
def retire (pc : Int) (inst : Record) (t : State) : State :=
  { t with
    cycle := t.cycle + 1
    trace := t.trace ++
      [{ cycle := t.cycle + 1, pc := pc, inst := inst, regs := t.regs, dm := t.dm }] }

/-- An instruction that leaves the engine RUNNING has completed and is counted and traced; one that
ends the run is not (R152, R158). -/
def retireIfRunning (pc : Int) (inst : Record) :
    Host.Outcome State Fault Refusal → Host.Outcome State Fault Refusal
  | .next t =>
    match t.run with
    | .running => .next (retire pc inst t)
    | _ => .next t
  | .fault f => .fault f
  | .refused r => .refused r

/-- Steps 1d to 3 of R159 on the fetched record, which is not BREAK. -/
def runRecord (effect : Instr → State → Host.Outcome State Fault Refusal) (r : Record)
    (s : State) : Host.Outcome State Fault Refusal :=
  if watchdogExpired s then .next (raise .watchdog s)
  else
    match r.body with
    | .invalid _ => .next (raise .invalidInstruction s)
    | .instr i => retireIfRunning s.pc r (effect i s)

/-- The step of a RUNNING engine (R159). BREAK halts before the watchdog is looked at (R153). -/
def runCycle (effect : Instr → State → Host.Outcome State Fault Refusal) (s : State) :
    Host.Outcome State Fault Refusal :=
  match fetch s with
  | none => .next (raise .positionRange s)
  | some r => if r.isBreak then effect .brk s else runRecord effect r s

/-- The step is enabled only while RUNNING (R28, R159, R266). -/
def engineStep (effect : Instr → State → Host.Outcome State Fault Refusal) (s : State) :
    Host.Outcome State Fault Refusal :=
  match s.run with
  | .running => runCycle effect s
  | .halted => .fault .halted
  | .faulted _ => .fault .faulted
  | .refused _ => .fault .loadRefused

end Sys2Proof.Machine
end

