-- ==== Sys2Proof/Machine/Operands.lean ====
section
/-! DEFINITION. The effective address and the values the instructions compute (spec/44_load_store.md
R200, spec/42_arithmetic_logic.md, spec/43_shifts.md): each is computed on the integers and narrowed
at the end (spec/00_scope.md R10). -/

namespace Sys2Proof.Machine

/-- `EA = sint(x[rn]) + 4 * dtaddr`, an unbounded integer; `dtaddr` is unsigned (R52, R200). -/
def effectiveAddress (rn : RegIdx) (dtaddr : BitVec 9) (s : State) : Int :=
  sint (readReg rn s) + 4 * (dtaddr.toNat : Int)

/-- The sum of ADD and ADDI (R171, R176, R178). -/
def sumOf (a b : Word) : Word := wrap32 (sint a + sint b)

/-- The difference of SUB and SUBI (R172, R177, R178). -/
def differenceOf (a b : Word) : Word := wrap32 (sint a - sint b)

/-- LSL: `wrap32(uint(v) * 2^shamt)`, the amount not reduced modulo 32 (R191, R194). -/
def shiftLeft (v : Word) (shamt : BitVec 6) : Word := wrap32 ((uint v * 2 ^ shamt.toNat : Nat) : Int)

/-- LSR: `floor(uint(v) / 2^shamt)` (R192, R194). -/
def shiftRightLogical (v : Word) (shamt : BitVec 6) : Word :=
  BitVec.ofNat 32 (uint v / 2 ^ shamt.toNat)

/-- ASR: `wrap32(floor(sint(v) / 2^shamt))`, rounding toward minus infinity (R193, R194). -/
def shiftRightArith (v : Word) (shamt : BitVec 6) : Word :=
  wrap32 (Int.fdiv (sint v) (2 ^ shamt.toNat))

end Sys2Proof.Machine
end

