-- ==== Sys2Proof/Machine/Flags.lean ====
section
/-! DEFINITION. T10 has no flags (spec/10_state.md R33): no instruction sets or reads one, and State
holds none. What stands in their place is the test CBZ and CBNZ make on a general register
(spec/45_branches.md R212, R213). -/

namespace Sys2Proof.Machine

/-- The condition operand is zero: all 32 bits of the register that `cond` names (R212, decision D6). -/
def condZero (cond : RegIdx) (s : State) : Bool := readReg cond s == 0

end Sys2Proof.Machine
end

