-- ==== Sys2Proof/Machine/ArithLogic.lean ====
section
/-! DEFINITION. ADD, SUB, AND, ORR, EOR, ADDI, SUBI (spec/42_arithmetic_logic.md). The operands
are read before `rd` is written, `shamt` is ignored, `delta` is 1, nothing faults (R170). -/

namespace Sys2Proof.Machine

/-- ADD (R171). -/
def execAdd (rm : RegIdx) (_shamt : BitVec 6) (rn rd : RegIdx) (s : State) :
    Host.Outcome State Fault Refusal :=
  doneWriting rd (sumOf (readReg rn s) (readReg rm s)) s

/-- SUB (R172). -/
def execSub (rm : RegIdx) (_shamt : BitVec 6) (rn rd : RegIdx) (s : State) :
    Host.Outcome State Fault Refusal :=
  doneWriting rd (differenceOf (readReg rn s) (readReg rm s)) s

/-- AND (R173). -/
def execAnd (rm : RegIdx) (_shamt : BitVec 6) (rn rd : RegIdx) (s : State) :
    Host.Outcome State Fault Refusal :=
  doneWriting rd (readReg rn s &&& readReg rm s) s

/-- ORR (R174). -/
def execOrr (rm : RegIdx) (_shamt : BitVec 6) (rn rd : RegIdx) (s : State) :
    Host.Outcome State Fault Refusal :=
  doneWriting rd (readReg rn s ||| readReg rm s) s

/-- EOR (R175). -/
def execEor (rm : RegIdx) (_shamt : BitVec 6) (rn rd : RegIdx) (s : State) :
    Host.Outcome State Fault Refusal :=
  doneWriting rd (readReg rn s ^^^ readReg rm s) s

/-- ADDI (R176). -/
def execAddi (imm : Word) (rn rd : RegIdx) (s : State) : Host.Outcome State Fault Refusal :=
  doneWriting rd (sumOf (readReg rn s) imm) s

/-- SUBI (R177). -/
def execSubi (imm : Word) (rn rd : RegIdx) (s : State) : Host.Outcome State Fault Refusal :=
  doneWriting rd (differenceOf (readReg rn s) imm) s

end Sys2Proof.Machine
end

