-- ==== Sys2Proof/Machine/Branches.lean ====
section
/-! DEFINITION. B, CBZ, CBNZ (spec/45_branches.md). The offset counts instruction positions from
the branch itself; a branch changes the position only and never faults (R210, R215). -/

namespace Sys2Proof.Machine

/-- B (R211). -/
def execB (offset : Word) (s : State) : Host.Outcome State Fault Refusal :=
  doneBranching (sint offset) s

/-- CBZ (R212). -/
def execCbz (offset : Word) (cond : RegIdx) (s : State) : Host.Outcome State Fault Refusal :=
  doneBranching (if condZero cond s then sint offset else 1) s

/-- CBNZ (R213). -/
def execCbnz (offset : Word) (cond : RegIdx) (s : State) : Host.Outcome State Fault Refusal :=
  doneBranching (if condZero cond s then 1 else sint offset) s

end Sys2Proof.Machine
end

