-- ==== Sys2Proof/Machine/LoadStore.lean ====
section
/-! DEFINITION. LDUR and STUR (spec/44_load_store.md). The checks come before any write (R200), so
an access that faults changes nothing but the run state (R158). -/

namespace Sys2Proof.Machine

/-- LDUR (R201). `op2` is ignored (R200). -/
def execLdur (dtaddr : BitVec 9) (_op2 : BitVec 2) (rn rt : RegIdx) (s : State) :
    Host.Outcome State Fault Refusal :=
  match memRead (effectiveAddress rn dtaddr s) s with
  | .error cause => doneFaulting cause s
  | .ok v => doneWriting rt v s

/-- STUR (R202). `op2` is ignored (R200). -/
def execStur (dtaddr : BitVec 9) (_op2 : BitVec 2) (rn rt : RegIdx) (s : State) :
    Host.Outcome State Fault Refusal :=
  match memWrite (effectiveAddress rn dtaddr s) (readReg rt s) s with
  | .error cause => doneFaulting cause s
  | .ok t => done t

end Sys2Proof.Machine
end

