-- ==== Sys2Proof/Machine/MovesNopBreak.lean ====
section
/-! DEFINITION. MOVZ, MOVK, NOP and BREAK (spec/46_moves_nop_break.md). MOVZ and MOVK are decoded
and have no effect beyond the advance (R220, R221; spec/90_conflicts.md C11). -/

namespace Sys2Proof.Machine

/-- MOVZ (R220): no register or memory change. -/
def execMovz (_shiftcode : BitVec 2) (_field : BitVec 16) (_rd : RegIdx) (s : State) :
    Host.Outcome State Fault Refusal :=
  done s

/-- MOVK (R221): no register or memory change. -/
def execMovk (_shiftcode : BitVec 2) (_field : BitVec 16) (_rd : RegIdx) (s : State) :
    Host.Outcome State Fault Refusal :=
  done s

/-- NOP (R222). -/
def execNop (s : State) : Host.Outcome State Fault Refusal := done s

/-- BREAK (R223): `run <- HALTED`; the position stays (R152). The spec makes this halt at the fetch and
never dispatches BREAK (R155); that it stands in `exec` is DESIGN CHOICE (notes/assumptions/7.md). -/
def execBreak (s : State) : Host.Outcome State Fault Refusal := .next (halt s)

end Sys2Proof.Machine
end

