-- ==== Sys2Proof/Machine/Shifts.lean ====
section
/-! DEFINITION. LSL, LSR, ASR (spec/43_shifts.md). A shift reads its own destination register;
`rn` and `rm` are ignored (R190; spec/90_conflicts.md C8). -/

namespace Sys2Proof.Machine

/-- LSL (R191). -/
def execLsl (_rm : RegIdx) (shamt : BitVec 6) (_rn rd : RegIdx) (s : State) :
    Host.Outcome State Fault Refusal :=
  doneWriting rd (shiftLeft (readReg rd s) shamt) s

/-- LSR (R192). -/
def execLsr (_rm : RegIdx) (shamt : BitVec 6) (_rn rd : RegIdx) (s : State) :
    Host.Outcome State Fault Refusal :=
  doneWriting rd (shiftRightLogical (readReg rd s) shamt) s

/-- ASR (R193). -/
def execAsr (_rm : RegIdx) (shamt : BitVec 6) (_rn rd : RegIdx) (s : State) :
    Host.Outcome State Fault Refusal :=
  doneWriting rd (shiftRightArith (readReg rd s) shamt) s

end Sys2Proof.Machine
end

