-- ==== Sys2Proof/Machine/Dispatch.lean ====
section
/-! DEFINITION. Dispatch on the mnemonic (spec/41_execution_cycle.md R155): step 2 of R159, the
instruction's own effect and its advance of the position. Counting and tracing stand in
Sys2Proof/Machine/Cycle.lean. -/

namespace Sys2Proof.Machine

def exec (i : Instr) (s : State) : Host.Outcome State Fault Refusal :=
  match i with
  | .b offset => Sys2Proof.Machine.execB offset s
  | .and rm shamt rn rd => Sys2Proof.Machine.execAnd rm shamt rn rd s
  | .add rm shamt rn rd => Sys2Proof.Machine.execAdd rm shamt rn rd s
  | .addi imm rn rd => Sys2Proof.Machine.execAddi imm rn rd s
  | .orr rm shamt rn rd => Sys2Proof.Machine.execOrr rm shamt rn rd s
  | .cbz offset cond => Sys2Proof.Machine.execCbz offset cond s
  | .cbnz offset cond => Sys2Proof.Machine.execCbnz offset cond s
  | .sub rm shamt rn rd => Sys2Proof.Machine.execSub rm shamt rn rd s
  | .subi imm rn rd => Sys2Proof.Machine.execSubi imm rn rd s
  | .movz shiftcode field rd => Sys2Proof.Machine.execMovz shiftcode field rd s
  | .lsr rm shamt rn rd => Sys2Proof.Machine.execLsr rm shamt rn rd s
  | .lsl rm shamt rn rd => Sys2Proof.Machine.execLsl rm shamt rn rd s
  | .asr rm shamt rn rd => Sys2Proof.Machine.execAsr rm shamt rn rd s
  | .eor rm shamt rn rd => Sys2Proof.Machine.execEor rm shamt rn rd s
  | .movk shiftcode field rd => Sys2Proof.Machine.execMovk shiftcode field rd s
  | .stur dtaddr op2 rn rt => Sys2Proof.Machine.execStur dtaddr op2 rn rt s
  | .ldur dtaddr op2 rn rt => Sys2Proof.Machine.execLdur dtaddr op2 rn rt s
  | .nop => Sys2Proof.Machine.execNop s
  | .brk => Sys2Proof.Machine.execBreak s

end Sys2Proof.Machine
end

