-- ==== Sys2Proof/Machine/Step.lean ====
section
/-! DEFINITION. The step of T10 and the placing of an instruction for the next fetch. -/

namespace Sys2Proof.Machine

/-- One step of EXU (spec/41_execution_cycle.md R159). -/
def step (s : State) : Host.Outcome State Fault Refusal := engineStep exec s

/-- `s` with the instruction of `nbits` bits `w` (bit 0 the least significant; the bits above
`nbits` are 0) where the next step fetches. -/
def State.withFetchWord (s : State) (nbits w : Nat) : State :=
  placeWord (BitVec.ofNat 32 (w % 2 ^ nbits)) s

end Sys2Proof.Machine
end

