-- ==== Sys2Proof/Machine/Render.lean ====
section
/-! DEFINITION. What the spec fixes of the disassembly and of the trace block
(spec/47_rendering_and_trace.md R230 to R237, spec/30_encoding.md R91, R92, R94, R95): pure
functions of LDR's results and of trace records that change no state. What the spec leaves open of
the text (separator characters, the separator line, column widths, the start of a memory row, the
marker at BREAK, the form of a fault report) stays out: a line is the tuple of its parts. -/

namespace Sys2Proof.Machine

/-- The 32 binary digits of a word, character index `c` holding bit `31 - c` (R9). -/
def wordDigits (w : Word) : List Char :=
  (List.range 32).map fun c => if w.getLsbD (31 - c) then '1' else '0'

/-- The widths of the groups, most significant first (R231); one group where the format has no
fields. -/
def groupWidths : Format → List Nat
  | .R => [11, 5, 6, 5, 5]
  | .I => [10, 12, 5, 5]
  | .D => [11, 9, 2, 5, 5]
  | .B => [6, 26]
  | .CB => [8, 19, 5]
  | .IM => [9, 2, 16, 5]
  | .NOP => [32]
  | .BREAK => [32]
  | .INVALID => [32]

/-- A list cut into groups of the given widths. -/
def cutInto {α : Type} : List Nat → List α → List (List α)
  | [], _ => []
  | n :: ns, xs => xs.take n :: cutInto ns (xs.drop n)

/-- The digits of a record's word grouped at the field boundaries of its format (R231). -/
def groupedDigits (r : Record) : List (List Char) := cutInto (groupWidths r.format) (wordDigits r.raw)

/-- The mnemonic in upper case (R91). -/
def mnemonicText : Mnemonic → String
  | .B => "B"
  | .AND => "AND"
  | .ADD => "ADD"
  | .ADDI => "ADDI"
  | .ORR => "ORR"
  | .CBZ => "CBZ"
  | .CBNZ => "CBNZ"
  | .SUB => "SUB"
  | .SUBI => "SUBI"
  | .MOVZ => "MOVZ"
  | .LSR => "LSR"
  | .LSL => "LSL"
  | .ASR => "ASR"
  | .EOR => "EOR"
  | .MOVK => "MOVK"
  | .STUR => "STUR"
  | .LDUR => "LDUR"
  | .NOP => "NOP"
  | .BREAK => "BREAK"

/-- `R` and the decimal index (R92). -/
def regText (i : RegIdx) : String := "R" ++ toString i.toNat

/-- `#` and the signed decimal value (R91, R232). -/
def immText (n : Int) : String := "#" ++ toString n

/-- `Rd, Rn, Rm` (R91). -/
def threeRegText (rd rn rm : RegIdx) : String :=
  regText rd ++ ", " ++ regText rn ++ ", " ++ regText rm

/-- `Rd, Rn, #shamt`: the notation of the spec for the shifts (R94, decision D22). -/
def shiftText (rd rn : RegIdx) (shamt : BitVec 6) : String :=
  regText rd ++ ", " ++ regText rn ++ ", " ++ immText shamt.toNat

/-- `Rd, Rn, #imm` (R91). -/
def immediateText (rd rn : RegIdx) (imm : Word) : String :=
  regText rd ++ ", " ++ regText rn ++ ", " ++ immText (sint imm)

/-- `Rt, [Rn, #dtaddr]`, the field as decoded (R91). -/
def addressText (rt rn : RegIdx) (dtaddr : BitVec 9) : String :=
  regText rt ++ ", [" ++ regText rn ++ ", " ++ immText dtaddr.toNat ++ "]"

/-- `Rcond, #offset` (R91). -/
def condText (cond : RegIdx) (offset : Word) : String := regText cond ++ ", " ++ immText (sint offset)

/-- `Rd, #field, LSL #shamt` with `shamt = 16 * shiftcode` (R91, R95, decision D26). -/
def moveText (rd : RegIdx) (field : BitVec 16) (shiftcode : BitVec 2) : String :=
  regText rd ++ ", " ++ immText field.toNat ++ ", LSL " ++ immText (16 * shiftcode.toNat : Nat)

/-- The operands of an instruction (R91, R232). -/
def operandText : Instr → String
  | .b offset => immText (sint offset)
  | .and rm _ rn rd => threeRegText rd rn rm
  | .add rm _ rn rd => threeRegText rd rn rm
  | .addi imm rn rd => immediateText rd rn imm
  | .orr rm _ rn rd => threeRegText rd rn rm
  | .cbz offset cond => condText cond offset
  | .cbnz offset cond => condText cond offset
  | .sub rm _ rn rd => threeRegText rd rn rm
  | .subi imm rn rd => immediateText rd rn imm
  | .movz shiftcode field rd => moveText rd field shiftcode
  | .lsr _ shamt rn rd => shiftText rd rn shamt
  | .lsl _ shamt rn rd => shiftText rd rn shamt
  | .asr _ shamt rn rd => shiftText rd rn shamt
  | .eor rm _ rn rd => threeRegText rd rn rm
  | .movk shiftcode field rd => moveText rd field shiftcode
  | .stur dtaddr _ rn rt => addressText rt rn dtaddr
  | .ldur dtaddr _ rn rt => addressText rt rn dtaddr
  | .nop => ""
  | .brk => ""

/-- The mnemonic and the operands of a record, `none` for INVALID, whose line the spec does not
give (R232). -/
def instructionText (r : Record) : Option (String × String) :=
  match r.body with
  | .instr i => some (mnemonicText i.mnemonic, operandText i)
  | .invalid _ => none

/-- One line of the disassembly before its separators are chosen (R230). -/
inductive DisassemblyLine where
  /-- Grouped digits, address, mnemonic and operands of an instruction (R231, R232). -/
  | instruction (groups : List (List Char)) (address : Int) (text : Option (String × String))
  /-- Digits, address and signed value of a trailing data word (R233). -/
  | data (digits : List Char) (address : Nat) (value : Int)
  deriving DecidableEq, Repr

/-- The line of an instruction record (R230). -/
def instructionLine (r : Record) : DisassemblyLine :=
  .instruction (groupedDigits r) r.address (instructionText r)

/-- The line of a data word (R233). -/
def dataLine (cell : Nat × Word) : DisassemblyLine :=
  .data (wordDigits cell.2) cell.1 (sint cell.2)

/-- The disassembly of an input: one line per instruction in program order, then one per trailing
data word (R230). For an input without BREAK, where LDR's only result is the refusal (R127, R133), the
spec does not say what is listed; DESIGN CHOICE (notes/assumptions/25.md): a line for each record built
before the input ended. -/
def disassembly (ws : List Word) : List DisassemblyLine :=
  (ldr ws).prog.map instructionLine ++ (ldr ws).dm.map dataLine

/-- One row of the memory part of a trace block: its starting address and its words, each with its
address, values signed (R235). -/
structure MemoryRow where
  start : Nat
  cells : List (Nat × Int)
  deriving DecidableEq, Repr

/-- The rows of 8 words of a list of cells, at most `fuel` of them. -/
def memoryRowsFrom : Nat → List (Nat × Int) → List MemoryRow
  | 0, _ => []
  | _ + 1, [] => []
  | fuel + 1, c :: cs =>
    { start := c.1, cells := c :: cs.take 7 } :: memoryRowsFrom fuel (cs.drop 7)

/-- The memory part of a trace block: all defined addresses in ascending order, 8 words per row, each
row with its starting address (R235). How a row starts after a gap is not given; DESIGN CHOICE
(notes/assumptions/23.md): a gap starts no new row, a row starts at the defined address that follows
the row before. -/
def memoryRows (m : Memory) : List MemoryRow :=
  memoryRowsFrom m.length (m.map fun c => (c.1, sint c.2))

/-- The parts of one trace block (R235): the header, the 32 registers in labelled rows of 8, the
defined data memory in ascending order in rows of 8, values signed. -/
structure TraceBlock where
  cycle : Nat
  address : Int
  text : Option (String × String)
  registerRows : List (String × List Int)
  memoryRows : List MemoryRow
  deriving DecidableEq, Repr

/-- The row of 8 registers from register `first` on. -/
def registerRow (label : String) (first : Nat) (regs : Vector Word 32) : String × List Int :=
  (label, ((regs.toList.drop first).take 8).map sint)

/-- The block of a trace record (R235). -/
def traceBlock (t : TraceRecord) : TraceBlock :=
  { cycle := t.cycle
    address := t.pc
    text := instructionText t.inst
    registerRows := [registerRow "r00:" 0 t.regs, registerRow "r08:" 8 t.regs,
      registerRow "r16:" 16 t.regs, registerRow "r24:" 24 t.regs]
    memoryRows := memoryRows t.dm }

/-- The trace of a run, one block per completed instruction in the order of the cycles (R235). -/
def traceBlocks (s : State) : List TraceBlock := s.trace.map traceBlock

end Sys2Proof.Machine
end

