-- ==== Sys2Proof/Safety.lean ====
section
/-! DEFINITION. The terms statements about T10 use: what one step yields, what a well-formed state
is, and how a run goes and ends (spec/41_execution_cycle.md R161, R162). -/

namespace Sys2Proof.Machine

/-- The engine is RUNNING (R28). -/
def State.isRunning (s : State) : Bool := s.run == .running

/-- The run has ended on a fatal fault (R28). -/
def State.isFaulted (s : State) : Bool :=
  match s.run with
  | .faulted _ => true
  | _ => false

/-- The record list is the decoding, at sequential addresses from position `p` on, of some words:
each record is what DEC makes of its own `raw` (R126, R127). -/
def recordsFrom : Int → List Record → Bool
  | _, [] => true
  | p, r :: rs => decide (r = recordOf (addressOf p) r.raw) && recordsFrom (p + 1) rs

/-- The list ends in a BREAK record and holds no other (R30). -/
def endsInOneBreak : List Record → Bool
  | [] => false
  | [r] => r.isBreak
  | r :: rs => !r.isBreak && endsInOneBreak rs

/-- The program store of a loaded machine (R30). -/
def progWf (prog : List Record) : Bool := recordsFrom 0 prog && endsInOneBreak prog

/-- Trace records are numbered consecutively from `n + 1` on (R27, R156). -/
def tracedFrom : Nat → List TraceRecord → Bool
  | _, [] => true
  | n, t :: ts => decide (t.cycle = n + 1) && tracedFrom (n + 1) ts

/-- At most MAX_CYCLES instructions have completed (R153). -/
def withinBound (s : State) : Bool :=
  match s.config.maxCycles with
  | none => true
  | some n => decide (s.cycle ≤ n)

/-- What the run state says of the rest of the state (R28, R29, R131, R152): HALTED stands at the
BREAK, FAULTED records the present address and the number the cycle would have had, and a refused
load has no program. -/
def runStateWf (s : State) : Bool :=
  match s.run with
  | .running => progWf s.prog
  | .halted => progWf s.prog && decide (s.pos = s.breakIndex)
  | .faulted r => progWf s.prog && decide (r.address = s.pc) && decide (r.cycle = s.cycle + 1)
  | .refused _ => decide (s.prog = [])

/-- The invariant of T10: data memory is in canonical form, the trace has one record for each
counted cycle, numbered from 1, the watchdog bound is kept, and the run state agrees with the rest. -/
def StateInv (s : State) : Bool :=
  memWf s.dm && decide (s.trace.length = s.cycle) && tracedFrom 0 s.trace && withinBound s &&
    runStateWf s

/-- The states a run passes through: `RunsTo s k t` when `k` steps lead from `s` to `t` (R161). -/
def RunsTo : State → Nat → State → Prop
  | s, 0, t => s = t
  | s, k + 1, t => ∃ u, step s = .next u ∧ RunsTo u k t

/-- The fields a program can see and the position: two states that agree on them differ only in
what no instruction reads (R27, R32). -/
def sameToProgram (s t : State) : Prop :=
  s.regs = t.regs ∧ s.pos = t.pos ∧ s.dm = t.dm ∧ s.prog = t.prog

/-- Two run states that differ in nothing but the cycle number of a fault record (R29). -/
def sameStop : RunState → RunState → Prop
  | .running, .running => True
  | .halted, .halted => True
  | .faulted r, .faulted r' => r.cause = r'.cause ∧ r.address = r'.address
  | .refused e, .refused e' => e = e'
  | _, _ => False

/-! ### What an instruction leaves unchanged -/

/-- The control state, the program store, the trace and the configuration are as before. -/
def keepsControl (s t : State) : Prop :=
  t.cycle = s.cycle ∧ t.run = s.run ∧ t.prog = s.prog ∧ t.trace = s.trace ∧ t.config = s.config

/-- Every address of data memory reads as before, the undefined ones included. -/
def keepsMemory (s t : State) : Prop := ∀ a, memGet t.dm a = memGet s.dm a

/-- Every general register reads as before. -/
def keepsRegs (s t : State) : Prop := ∀ r, readReg r t = readReg r s

/-- Register `rd` reads `v`, every other general register as before. -/
def setsReg (rd : RegIdx) (v : Word) (s t : State) : Prop :=
  readReg rd t = v ∧ ∀ r, r ≠ rd → readReg r t = readReg r s

/-- The word at address `a` reads `v`, every other address as before. -/
def setsWord (a : Nat) (v : Word) (s t : State) : Prop :=
  memGet t.dm a = some v ∧ ∀ a', a' ≠ a → memGet t.dm a' = memGet s.dm a'

/-- The instruction writes `v` to `rd` and goes on to the next position; nothing else changes. -/
def completesWriting (rd : RegIdx) (v : Word) (s t : State) : Prop :=
  setsReg rd v s t ∧ keepsMemory s t ∧ keepsControl s t ∧ t.pos = s.pos + 1

/-- The instruction moves the position by `delta`; nothing else changes. -/
def completesMoving (delta : Int) (s t : State) : Prop :=
  keepsRegs s t ∧ keepsMemory s t ∧ keepsControl s t ∧ t.pos = s.pos + delta

/-- The run state is FAULTED with this cause, the present address and the number the cycle would
have had (R29, R252); nothing else changes. -/
def endsInFault (cause : Cause) (s t : State) : Prop :=
  t = { s with run := .faulted { cause := cause, address := s.pc, cycle := s.cycle + 1 } }

/-- A legal address of data memory (R53). -/
def legalAddress (ea : Int) : Prop := 0 ≤ ea ∧ ea ≤ 2 ^ 31 - 4 ∧ ea % 4 = 0

/-- The signed number of positions an instruction that completes moves by (R26). -/
def deltaOf (i : Instr) (s : State) : Int :=
  match i with
  | .b offset => sint offset
  | .cbz offset cond => if readReg cond s = 0 then sint offset else 1
  | .cbnz offset cond => if readReg cond s = 0 then 1 else sint offset
  | _ => 1

/-- The registers an instruction reads (R23). -/
def readsOf : Instr → List RegIdx
  | .b _ => []
  | .and rm _ rn _ => [rn, rm]
  | .add rm _ rn _ => [rn, rm]
  | .addi _ rn _ => [rn]
  | .orr rm _ rn _ => [rn, rm]
  | .cbz _ cond => [cond]
  | .cbnz _ cond => [cond]
  | .sub rm _ rn _ => [rn, rm]
  | .subi _ rn _ => [rn]
  | .movz _ _ _ => []
  | .lsr _ _ _ rd => [rd]
  | .lsl _ _ _ rd => [rd]
  | .asr _ _ _ rd => [rd]
  | .eor rm _ rn _ => [rn, rm]
  | .movk _ _ _ => []
  | .stur _ _ rn rt => [rn, rt]
  | .ldur _ _ rn _ => [rn]
  | .nop => []
  | .brk => []

/-- The registers an instruction writes (R23). -/
def writesOf : Instr → List RegIdx
  | .b _ => []
  | .and _ _ _ rd => [rd]
  | .add _ _ _ rd => [rd]
  | .addi _ _ rd => [rd]
  | .orr _ _ _ rd => [rd]
  | .cbz _ _ => []
  | .cbnz _ _ => []
  | .sub _ _ _ rd => [rd]
  | .subi _ _ rd => [rd]
  | .movz _ _ _ => []
  | .lsr _ _ _ rd => [rd]
  | .lsl _ _ _ rd => [rd]
  | .asr _ _ _ rd => [rd]
  | .eor _ _ _ rd => [rd]
  | .movk _ _ _ => []
  | .stur _ _ _ _ => []
  | .ldur _ _ _ rt => [rt]
  | .nop => []
  | .brk => []

/-- The instructions that neither branch, nor access data memory, nor end the run. -/
def straightLine : Instr → Bool
  | .b _ => false
  | .cbz _ _ => false
  | .cbnz _ _ => false
  | .stur _ _ _ _ => false
  | .ldur _ _ _ _ => false
  | .brk => false
  | .and _ _ _ _ => true
  | .add _ _ _ _ => true
  | .addi _ _ _ => true
  | .orr _ _ _ _ => true
  | .sub _ _ _ _ => true
  | .subi _ _ _ => true
  | .movz _ _ _ => true
  | .lsr _ _ _ _ => true
  | .lsl _ _ _ _ => true
  | .asr _ _ _ _ => true
  | .eor _ _ _ _ => true
  | .movk _ _ _ => true
  | .nop => true

/-! ### The input of a load -/

/-- Position `b` holds the first BREAK word of the input (R127). -/
def firstBreakAt (ws : List Word) (b : Nat) : Prop :=
  (∃ w, ws[b]? = some w ∧ keyOf w = 2038) ∧ ∀ i w, i < b → ws[i]? = some w → keyOf w ≠ 2038

end Sys2Proof.Machine
end

