-- ==== Sys2Proof/Certificates/Slice0/Obligations.lean ====
section
/-! DEFINITION. The statements for the provers, in the order of OBLIGATIONS.json. A docstring names
the rule of spec/ a statement formalises; where a clause rests on a decision the spec marks as its
own, it names the decision and the entry of notes/assumptions/. -/

open Sys2Proof Sys2Proof.Machine

/-! ### Encoding, classification, decoding -/

/-- Words written out from the encodings of R72 to R78 decode to the instructions they stand for,
one for each format and one INVALID word (the examples of R115 to R121). -/
def Obligations.WrittenOutWordsDecode : Prop :=
  decodeTableWord 32 0b10001011000_00010_000000_00001_00011 = some (.add 2 0 1 3) ∧
  decodeTableWord 32 0b11111000010_000000001_00_00001_00011 = some (.ldur 1 0 1 3) ∧
  decodeTableWord 32 0b1001000100_111111111111_00000_00001 = some (.addi (-1) 0 1) ∧
  decodeTableWord 32 0b000101_11111111111111111111111110 = some (.b (-2)) ∧
  decodeTableWord 32 0b10110101_1111111111111111110_00001 = some (.cbnz (-2) 1) ∧
  decodeTableWord 32 0b110100101_01_1111111111111111_00111 = some (.movz 1 65535 7) ∧
  decodeTableWord 32 0b00000000000_111111111111111111111 = some .nop ∧
  decodeTableWord 32 0b11111110110_000000000000000000000 = some .brk ∧
  decodeTableWord 32 0b00000000001_000000000000000000000 = none

/-- Decoding the encoding of a well-formed instruction gives it back: no field of R72 to R77 is
dropped, and the native opcodes of R82 select their own row. -/
def Obligations.DecodeInvertsEncode : Prop :=
  ∀ i : Instr, WellFormed i = true → decode (encode i) = some i

/-- Encoding what a word decodes to gives the word back; for NOP and BREAK, whose low 21 bits are
ignored (R78), it gives the word with those bits cleared. -/
def Obligations.EncodeInvertsDecode : Prop :=
  ∀ (w : Word) (i : Instr), decode w = some i →
    encode i = if i = .nop ∨ i = .brk then w &&& 0xFFE00000 else w

/-- What the decoder gives is well-formed: the signed fields are in the ranges of R80. -/
def Obligations.DecodedInstructionsAreWellFormed : Prop :=
  ∀ (w : Word) (i : Instr), decode w = some i → WellFormed i = true

/-- The key ranges of CLS and the columns `match` and `mask` of the key table select the same words
(R85, R86). -/
def Obligations.ClassificationIsMatchUnderMask : Prop :=
  ∀ (w : Word) (m : Mnemonic),
    (cls (keyOf w)).1 = some m ↔ w &&& (matchMask m).2 = (matchMask m).1

/-- The mnemonic and the format of a record are those CLS gives for its key alone (R70, R110). -/
def Obligations.RecordFormatIsAFunctionOfTheKey : Prop :=
  ∀ (a : Int) (w : Word),
    ((recordOf a w).mnemonic, (recordOf a w).format) = cls (keyOf w)

/-- R79, sign extension: if the top bit of an `n`-bit field is set, the field is or-ed with a mask of
ones above it, otherwise it is unchanged; and the source's two checks. -/
def Obligations.SignExtensionOrsTheMaskAbove : Prop :=
  (∀ (n : Nat) (v : BitVec n), 0 < n → n ≤ 32 →
    sext v = if v.getLsbD (n - 1) then v.setWidth 32 ||| (BitVec.allOnes 32 <<< n)
      else v.setWidth 32) ∧
  sint (sext (0x7FF : BitVec 12)) = 2047 ∧ sint (sext (0x800 : BitVec 12)) = -2048

/-- R115 to R120: how a word is sliced in each of the six operand formats, with the native opcode of
the format and the example word of each rule. Every field the format lacks is 0. For the I format,
bit 21 is the low bit of the key and the sign of the immediate (R117). -/
def Obligations.FieldsAreSlicedByFormat : Prop :=
  ∀ (a : Int) (w : Word),
    ((recordOf a w).format = .R →
      (recordOf a w).opcode = (bitsAt 21 11 w).toNat ∧
      (recordOf a w).fields =
        { rm := bitsAt 16 5 w, shamt := bitsAt 10 6 w, rn := bitsAt 5 5 w, rd := bitsAt 0 5 w }) ∧
    ((recordOf a w).format = .D →
      (recordOf a w).opcode = (bitsAt 21 11 w).toNat ∧
      (recordOf a w).fields =
        { dtaddr := bitsAt 12 9 w, op2 := bitsAt 10 2 w, rn := bitsAt 5 5 w, rt := bitsAt 0 5 w }) ∧
    ((recordOf a w).format = .I →
      (recordOf a w).opcode = (bitsAt 22 10 w).toNat ∧
      (recordOf a w).fields =
        { imm := sext (bitsAt 10 12 w), rn := bitsAt 5 5 w, rd := bitsAt 0 5 w } ∧
      ((keyOf w).getLsbD 0 = true ↔ sint (recordOf a w).fields.imm < 0)) ∧
    ((recordOf a w).format = .B →
      (recordOf a w).opcode = (bitsAt 26 6 w).toNat ∧ (recordOf a w).opcode = 5 ∧
      (recordOf a w).fields = { offset := sext (bitsAt 0 26 w) }) ∧
    ((recordOf a w).format = .CB →
      (recordOf a w).opcode = (bitsAt 24 8 w).toNat ∧
      (recordOf a w).fields = { offset := sext (bitsAt 5 19 w), cond := bitsAt 0 5 w }) ∧
    ((recordOf a w).format = .IM →
      (recordOf a w).opcode = (bitsAt 23 9 w).toNat ∧
      (recordOf a w).fields =
        { shiftcode := bitsAt 21 2 w, field := bitsAt 5 16 w, rd := bitsAt 0 5 w }) ∧
    ((recordOf a 0x8B020023).key = 1112 ∧ (recordOf a 0x8B020023).mnemonic = some .ADD ∧
      (recordOf a 0x8B020023).fields = { rm := 2, shamt := 0, rn := 1, rd := 3 }) ∧
    ((recordOf a 0xF8401023).key = 1986 ∧ (recordOf a 0xF8401023).mnemonic = some .LDUR ∧
      (recordOf a 0xF8401023).fields = { dtaddr := 1, op2 := 0, rn := 1, rt := 3 }) ∧
    ((recordOf a 0x913FFC01).key = 1161 ∧ (recordOf a 0x913FFC01).mnemonic = some .ADDI ∧
      (recordOf a 0x913FFC01).opcode = 580 ∧
      (recordOf a 0x913FFC01).fields = { imm := wrap32 (-1), rn := 0, rd := 1 }) ∧
    ((recordOf a 0x17FFFFFE).key = 191 ∧ (recordOf a 0x17FFFFFE).mnemonic = some .B ∧
      (recordOf a 0x17FFFFFE).fields = { offset := wrap32 (-2) }) ∧
    ((recordOf a 0xB5FFFFC1).key = 1455 ∧ (recordOf a 0xB5FFFFC1).mnemonic = some .CBNZ ∧
      (recordOf a 0xB5FFFFC1).opcode = 181 ∧
      (recordOf a 0xB5FFFFC1).fields = { offset := wrap32 (-2), cond := 1 }) ∧
    ((recordOf a 0xD2BFFFE7).key = 1685 ∧ (recordOf a 0xD2BFFFE7).mnemonic = some .MOVZ ∧
      (recordOf a 0xD2BFFFE7).opcode = 421 ∧
      (recordOf a 0xD2BFFFE7).fields = { shiftcode := 1, field := 65535, rd := 7 })

/-- NOP, BREAK and INVALID records have every operand field 0 and the key as their opcode, and an
INVALID record has no mnemonic. Rests on decisions D5 and D21 of the spec (notes/assumptions/9.md). -/
def Obligations.FieldlessRecordsAreZero : Prop :=
  ∀ (a : Int) (w : Word),
    (recordOf a w).format = .NOP ∨ (recordOf a w).format = .BREAK ∨
      (recordOf a w).format = .INVALID →
    (recordOf a w).fields = {} ∧ (recordOf a w).opcode = (keyOf w).toNat ∧
      ((recordOf a w).mnemonic = none ↔ (recordOf a w).format = .INVALID)

/-- The words of the encodings in the instruction rules (R171 to R177, R191 to R193, R201, R202, R211
to R213, R220 to R223): the match value or-ed with the shifted fields. -/
def Obligations.EncodedWordsAreTheRulesFormulas : Prop :=
  (∀ (rm : RegIdx) (shamt : BitVec 6) (rn rd : RegIdx),
    let fields : Word := rm.setWidth 32 <<< 16 ||| shamt.setWidth 32 <<< 10 |||
      rn.setWidth 32 <<< 5 ||| rd.setWidth 32
    encode (.add rm shamt rn rd) = 0x8B000000 ||| fields ∧
    encode (.sub rm shamt rn rd) = 0xCB000000 ||| fields ∧
    encode (.and rm shamt rn rd) = 0x8A000000 ||| fields ∧
    encode (.orr rm shamt rn rd) = 0xAA000000 ||| fields ∧
    encode (.eor rm shamt rn rd) = 0xEA000000 ||| fields ∧
    encode (.lsl rm shamt rn rd) = 0xD3600000 ||| fields ∧
    encode (.lsr rm shamt rn rd) = 0xD3400000 ||| fields ∧
    encode (.asr rm shamt rn rd) = 0xD3800000 ||| fields) ∧
  (∀ (imm : Word) (rn rd : RegIdx),
    let fields : Word := (imm % 4096) <<< 10 ||| rn.setWidth 32 <<< 5 ||| rd.setWidth 32
    encode (.addi imm rn rd) = 0x91000000 ||| fields ∧
    encode (.subi imm rn rd) = 0xD1000000 ||| fields) ∧
  (∀ (dtaddr : BitVec 9) (op2 : BitVec 2) (rn rt : RegIdx),
    let fields : Word := dtaddr.setWidth 32 <<< 12 ||| op2.setWidth 32 <<< 10 |||
      rn.setWidth 32 <<< 5 ||| rt.setWidth 32
    encode (.ldur dtaddr op2 rn rt) = 0xF8400000 ||| fields ∧
    encode (.stur dtaddr op2 rn rt) = 0xF8000000 ||| fields) ∧
  (∀ offset : Word, encode (.b offset) = 0x14000000 ||| offset % 67108864) ∧
  (∀ (offset : Word) (cond : RegIdx),
    let fields : Word := (offset % 524288) <<< 5 ||| cond.setWidth 32
    encode (.cbz offset cond) = 0xB4000000 ||| fields ∧
    encode (.cbnz offset cond) = 0xB5000000 ||| fields) ∧
  (∀ (shiftcode : BitVec 2) (field : BitVec 16) (rd : RegIdx),
    let fields : Word := shiftcode.setWidth 32 <<< 21 ||| field.setWidth 32 <<< 5 |||
      rd.setWidth 32
    encode (.movz shiftcode field rd) = 0xD2800000 ||| fields ∧
    encode (.movk shiftcode field rd) = 0xF2800000 ||| fields) ∧
  encode .nop = 0x00000000 ∧ encode .brk = 0xFEC00000

/-- The groups of a disassembly line have the widths of R231's table, most significant first, with BREAK
ungrouped; joined again they are the 32 digits of the word, and reading those digits from bit 31 down
gives the word (R9). That NOP and INVALID are ungrouped is an inference the spec marks as its own. -/
def Obligations.GroupedDigitsReproduceTheWord : Prop :=
  ∀ (a : Int) (w : Word),
    ((groupedDigits (recordOf a w)).map List.length =
      match (recordOf a w).format with
      | .R => [11, 5, 6, 5, 5]
      | .D => [11, 9, 2, 5, 5]
      | .I => [10, 12, 5, 5]
      | .B => [6, 26]
      | .CB => [8, 19, 5]
      | .IM => [9, 2, 16, 5]
      | .NOP => [32]
      | .BREAK => [32]
      | .INVALID => [32]) ∧
    (groupedDigits (recordOf a w)).flatten = wordDigits w ∧ wordOfLine (wordDigits w) = some w

/-! ### Load and reset -/

/-- LDR's program (R126, R127, R133): the records of the words up to the first BREAK, each at its
sequential address, whatever their keys. -/
def Obligations.LoadedProgramEndsAtTheFirstBreak : Prop :=
  ∀ (ws : List Word) (b : Nat), firstBreakAt ws b →
    (ldr ws).breakSeen = true ∧ (ldr ws).prog.length = b + 1 ∧
    (∀ i w, i ≤ b → ws[i]? = some w →
      (ldr ws).prog[i]? = some (recordOf (96 + 4 * (i : Int)) w)) ∧
    endsInOneBreak (ldr ws).prog = true

/-- R64 and R130: data memory at reset is defined exactly at the addresses of the words after the
first BREAK, each with that word's bits, and is empty when BREAK is the last word. -/
def Obligations.DataMemoryAtResetIsTheTrailingWords : Prop :=
  ∀ (config : RunConfig) (ws : List Word) (b : Nat), firstBreakAt ws b →
    (∀ (a : Nat) (v : Word), memGet (State.afterReset config ws).dm a = some v ↔
      ∃ i, b < i ∧ ws[i]? = some v ∧ a = 96 + 4 * i) ∧
    (ws.length = b + 1 → (State.afterReset config ws).dm = [])

/-- The reports of a load (R123, R127, R261): exactly one for each INVALID word before the first BREAK, in
the order of the words, with its index and key; the load goes on past it (R132). The index is the
spec's convention (decision D15). -/
def Obligations.ReportsNameTheInvalidWords : Prop :=
  ∀ (ws : List Word) (b : Nat), firstBreakAt ws b →
    ((ldr ws).reports = (ws.take b).zipIdx.filterMap fun p =>
      if (cls (keyOf p.1)).1 = none then some { index := p.2, key := keyOf p.1 } else none) ∧
    ∀ (i : Nat) (key : Key), { index := i, key := key : Report } ∈ (ldr ws).reports ↔
      i < b ∧ ∃ w, ws[i]? = some w ∧ keyOf w = key ∧ (cls key).1 = none

/-- An input without BREAK is refused and the engine never steps (R131, R263). Rests on decision D16 of
the spec; that the step then answers the fault `loadRefused` is the model's form of the stop
(DESIGN CHOICE, notes/assumptions/4.md). -/
def Obligations.MissingBreakRefusesTheLoad : Prop :=
  ∀ (config : RunConfig) (ws : List Word), (∀ w ∈ ws, keyOf w ≠ 2038) →
    (State.afterReset config ws).run = .refused .missingBreak ∧
    (State.afterReset config ws).trace = [] ∧
    step (State.afterReset config ws) = .fault .loadRefused

/-- R24: after a reset every general register holds 0, and in every run from there a register that no
completed instruction has written, as the trace names them, still reads 0. -/
def Obligations.UnwrittenRegistersReadZero : Prop :=
  ∀ (config : RunConfig) (ws : List Word) (b : Nat) (r : RegIdx), firstBreakAt ws b →
    readReg r (State.afterReset config ws) = 0 ∧
    ∀ (k : Nat) (t : State), RunsTo (State.afterReset config ws) k t →
      (∀ record ∈ t.trace, ∀ i, record.inst.body = .instr i → r ∉ writesOf i) →
      readReg r t = 0

/-- The reset values of R37 and R281, steps 3 to 9, for an input that holds a BREAK: every register 0, the
position 0 and so the program counter 96, the cycle counter 0, RUNNING, the trace empty, program, index of
the BREAK and data memory as LDR gives them, and the parameters of the run as presented (R38). -/
def Obligations.ResetStartsAtTheFirstWord : Prop :=
  ∀ (config : RunConfig) (ws : List Word) (b : Nat), firstBreakAt ws b →
    (∀ r : RegIdx, readReg r (State.afterReset config ws) = 0) ∧
    (State.afterReset config ws).pos = 0 ∧ (State.afterReset config ws).pc = 96 ∧
    (State.afterReset config ws).cycle = 0 ∧ (State.afterReset config ws).run = .running ∧
    (State.afterReset config ws).trace = [] ∧ (State.afterReset config ws).config = config ∧
    (State.afterReset config ws).breakIndex = b ∧
    (State.afterReset config ws).prog = (ldr ws).prog ∧
    (State.afterReset config ws).dm = (ldr ws).dm

/-! ### The step -/

/-- A running engine that fetches the record of an instruction runs `exec` on it and, where that leaves
it running, counts and traces it (R159); BREAK is run before the watchdog is looked at. R155 says that
BREAK is never dispatched: that `exec` of BREAK is the halt of R152 is the model's split of the step
(DESIGN CHOICE, notes/assumptions/7.md). -/
def Obligations.StepRunsTheFetchedInstruction : Prop :=
  ∀ (s : State) (r : Record) (i : Instr), s.run = .running → fetch s = some r →
    r.body = .instr i → (i = .brk ∨ watchdogExpired s = false) →
    step s = match exec i s with
      | .next t =>
        if t.run = .running then
          .next { t with
            cycle := t.cycle + 1
            trace := t.trace ++ [{ cycle := t.cycle + 1, pc := s.pc, inst := r,
                                   regs := t.regs, dm := t.dm }] }
        else .next t
      | other => other

/-- The fetch at position `p` of a loaded program gives the decoding of input word `p` (R127, R133),
and after `withFetchWord` the step fetches the word that was placed and goes on to run it. The second
clause is about the model's own placing of a program (notes/assumptions/2.md). -/
def Obligations.FetchGivesTheDecodedWord : Prop :=
  (∀ (ws : List Word) (b p : Nat) (w : Word) (s : State), firstBreakAt ws b → p ≤ b →
    ws[p]? = some w → s.prog = (ldr ws).prog → s.pos = p →
    fetch s = some (recordOf s.pc w)) ∧
  (∀ (s : State) (w : Word),
    fetch (s.withFetchWord 32 w.toNat) = some (recordOf (s.withFetchWord 32 w.toNat).pc w) ∧
    (s.withFetchWord 32 w.toNat).run = .running ∧
    watchdogExpired (s.withFetchWord 32 w.toNat) = false)

/-- Fetching BREAK sets the run state to HALTED and changes nothing else, whatever the watchdog says; at
position 0 of a reset state the run halts at once (R152, whose last clause the spec derives). -/
def Obligations.BreakHaltsAndChangesNothingElse : Prop :=
  (∀ (s : State) (r : Record), s.run = .running → fetch s = some r → r.format = .BREAK →
    step s = .next { s with run := .halted }) ∧
  (∀ (config : RunConfig) (ws : List Word), firstBreakAt ws 0 →
    step (State.afterReset config ws) =
      .next { State.afterReset config ws with run := .halted })

/-- Fetching an INVALID record (R154) ends the step in the fault E_INVALID_INSTRUCTION with the address of
the record, where the watchdog, whose check comes first (R159), has not expired. -/
def Obligations.InvalidRecordFaultsWhenFetched : Prop :=
  ∀ (s : State) (r : Record), s.run = .running → fetch s = some r → r.format = .INVALID →
    watchdogExpired s = false →
    ∃ t, step s = .next t ∧ endsInFault .invalidInstruction s t

/-- A position outside 0..b is a fault at the fetch (R151), with the address of that position. Rests on
decisions D10 and D11 of the spec. -/
def Obligations.PositionOutsideTheProgramFaults : Prop :=
  ∀ (s : State), s.run = .running → (s.pos < 0 ∨ s.breakIndex < s.pos) →
    step s = .next { s with
      run := .faulted { cause := .positionRange, address := 96 + 4 * s.pos, cycle := s.cycle + 1 } }

/-- When MAX_CYCLES is reached no instruction but BREAK is started (R153). Rests on decision D12 of the
spec. -/
def Obligations.WatchdogStopsAllButBreak : Prop :=
  ∀ (s : State) (r : Record) (n : Nat), s.run = .running → fetch s = some r →
    r.format ≠ .BREAK → s.config.maxCycles = some n → n ≤ s.cycle →
    ∃ t, step s = .next t ∧ endsInFault .watchdog s t

/-- HALTED, FAULTED and REFUSED have no outgoing transition (R28, R266). That the step then answers a
fault is the model's form for it (notes/assumptions/4.md). -/
def Obligations.StoppedEngineTakesNoStep : Prop :=
  ∀ (s : State), s.run ≠ .running → ∃ f, step s = .fault f

/-- While RUNNING the step always has an outcome that is a next state: nothing is stuck (R162). -/
def Obligations.RunningEngineAlwaysHasANextState : Prop :=
  ∀ (s : State), s.run = .running → ∃ t, step s = .next t

/-- The cycle counter is 0 after a reset whose load succeeds and goes up by exactly 1 when an instruction completes; the fetch
of BREAK and a fault leave it; so the first trace record carries cycle 1; and no instruction reads it:
from two states that differ in it alone an instruction goes on alike (R27; that the counter has no
bound is decision D13 of the spec). -/
def Obligations.CycleCountsCompletedInstructions : Prop :=
  (∀ (config : RunConfig) (ws : List Word) (b : Nat), firstBreakAt ws b →
    (State.afterReset config ws).cycle = 0) ∧
  (∀ (s t : State), step s = .next t →
    (t.run = .running → t.cycle = s.cycle + 1) ∧ (t.run ≠ .running → t.cycle = s.cycle)) ∧
  (∀ (config : RunConfig) (ws : List Word) (t : State),
    step (State.afterReset config ws) = .next t → t.run = .running →
    t.trace.map TraceRecord.cycle = [1]) ∧
  (∀ (i : Instr) (s t : State) (n : Nat), exec i s = .next t → s.run = .running →
    ∃ u, exec i { s with cycle := n } = .next u ∧ sameToProgram t u ∧
      (u.run = .running ↔ t.run = .running))

/-- A completed instruction is counted and appends exactly one trace record, with the new cycle number,
the address of the instruction just executed, its record and the registers and data memory as they are
after it (R156); the fetch of BREAK appends none (R152), and neither does a fault (R158, R252, which
rest on decision D11 of the spec). -/
def Obligations.TraceTakesOneRecordPerInstruction : Prop :=
  ∀ (s t : State), step s = .next t →
    (t.run = .running → t.cycle = s.cycle + 1 ∧ ∃ r, fetch s = some r ∧ t.trace = s.trace ++
      [{ cycle := s.cycle + 1, pc := s.pc, inst := r, regs := t.regs, dm := t.dm }]) ∧
    (t.run ≠ .running → t.trace = s.trace)

/-- A step that ends in a fault changes nothing but the run state, whose record holds the present address
and the number the cycle would have had (R158, R252). Rests on decision D11 of the spec. -/
def Obligations.FaultChangesOnlyTheRunState : Prop :=
  ∀ (s t : State) (record : FaultRecord), step s = .next t → t.run = .faulted record →
    t = { s with run := .faulted record } ∧ record.address = s.pc ∧ record.cycle = s.cycle + 1

/-- No step changes the program store or the parameters of the run, so a store is never seen by a later
fetch (R30, R63). -/
def Obligations.ProgramStoreIsNeverWritten : Prop :=
  ∀ (s t : State), step s = .next t → t.prog = s.prog ∧ t.config = s.config ∧
    ∀ p : Int, fetch { t with pos := p } = fetch { s with pos := p }

/-- Of all instructions only LDUR and STUR raise a fault, LDUR alone the fault of an undefined word, and
the fault of a register index is raised by no step (R251). The last clause is an inference the spec marks
as its own (R254; DEDUCED, notes/assumptions/24.md). -/
def Obligations.OnlyLoadsAndStoresRaiseFaults : Prop :=
  (∀ (i : Instr) (s t : State) (record : FaultRecord), s.run = .running → exec i s = .next t →
    t.run = .faulted record →
    (i.mnemonic = .LDUR ∨ i.mnemonic = .STUR) ∧
    (∀ ea, record.cause = .undefinedLoad ea → i.mnemonic = .LDUR)) ∧
  (∀ (s t : State) (record : FaultRecord), step s = .next t → t.run = .faulted record →
    record.cause ≠ .registerIndex)

/-- HALTED is reached only by fetching the BREAK at position b (R161): from a state with a loaded program,
a step that halts was made at position b on a BREAK record. -/
def Obligations.HaltIsReachedOnlyAtTheBreak : Prop :=
  ∀ (s t : State), StateInv s = true → step s = .next t → t.run = .halted →
    s.pos = s.breakIndex ∧ ∃ r, fetch s = some r ∧ r.format = .BREAK

/-- R26: an instruction that completes moves the position by its delta, 1 for all but a taken branch, and
the program counter by four times that; the program counter is always a multiple of 4; and only the
next fetch checks the position. -/
def Obligations.PositionAdvancesByTheDelta : Prop :=
  (∀ (i : Instr) (s t : State), s.run = .running → exec i s = .next t → t.run = .running →
    t.pos = s.pos + deltaOf i s ∧ t.pc = s.pc + 4 * deltaOf i s) ∧
  (∀ (s t : State) (r : Record) (i : Instr), step s = .next t → t.run = .running →
    fetch s = some r → r.body = .instr i → t.pos = s.pos + deltaOf i s) ∧
  (∀ (s : State), s.pc % 4 = 0) ∧
  (∀ (s : State), s.run = .running →
    ((s.pos < 0 ∨ s.breakIndex < s.pos) ↔
      ∃ t record, step s = .next t ∧ t.run = .faulted record ∧ record.cause = .positionRange))

/-! ### Whole runs and invariants -/

/-- Every step keeps the invariant (R27, R29, R30, R31, R153, R156 as Safety.lean gathers them), from
every state that has it. -/
def Obligations.EveryStepKeepsTheInvariant : Prop :=
  ∀ (s t : State), StateInv s = true → step s = .next t → StateInv t = true

/-- The state after a reset has the invariant; `State.reset` is the reset that presents the empty input,
which is the model's choice (notes/assumptions/1.md). -/
def Obligations.ResetStateHasTheInvariant : Prop :=
  State.reset = State.afterReset {} [] ∧ StateInv State.reset = true

/-- Every load, whatever its input, leaves a state with the invariant (R127, R130, R131). For an input
without BREAK, where R281 defines no state but the run state, it holds through the values the model
gives the other fields (DESIGN CHOICE, notes/assumptions/1.md). -/
def Obligations.EveryLoadGivesTheInvariant : Prop :=
  ∀ (config : RunConfig) (ws : List Word), StateInv (State.afterReset config ws) = true

/-- Data memory in canonical form is determined by what its addresses read as: states that no access can
tell apart are equal data. The canonical form is the model's (notes/assumptions/3.md). -/
def Obligations.EqualReadsMeanEqualMemories : Prop :=
  ∀ (m n : Memory), memWf m = true → memWf n = true → (∀ a, memGet m a = memGet n a) → m = n

/-- With MAX_CYCLES set, every run ends: at most MAX_CYCLES more instructions complete and one more step
leaves RUNNING (R153, R162). Rests on decision D12 of the spec. -/
def Obligations.BoundedRunEnds : Prop :=
  ∀ (s : State) (n : Nat), s.run = .running → s.config.maxCycles = some n →
    ∃ k t, k ≤ n - s.cycle + 1 ∧ RunsTo s k t ∧ t.run ≠ .running

/-- From a state whose records from the position up to b neither branch nor access memory, the run halts at
b after exactly one cycle for each of them (R285, R286), when no watchdog is set. -/
def Obligations.StraightLineRunHaltsAtTheBreak : Prop :=
  ∀ (s : State), StateInv s = true → s.run = .running → s.config.maxCycles = none →
    0 ≤ s.pos → s.pos ≤ s.breakIndex →
    (∀ p r, s.pos ≤ p → p < s.breakIndex → fetch { s with pos := p } = some r →
      ∃ i, r.body = .instr i ∧ straightLine i = true) →
    ∃ t, RunsTo s ((s.breakIndex - s.pos).toNat + 1) t ∧ t.run = .halted ∧
      t.pos = s.breakIndex ∧ t.cycle = s.cycle + (s.breakIndex - s.pos).toNat ∧
      keepsMemory s t

/-- What the cycle counter and the trace hold never reaches the program (R27, R32): without a watchdog, two
running states that agree on registers, memory, position and program step to states that agree on
them, and stop alike, with the same cause and address where they fault. -/
def Obligations.CycleAndTraceAreInvisibleToTheProgram : Prop :=
  ∀ (s t s' : State), s.run = .running → t.run = .running → sameToProgram s t →
    s.config.maxCycles = none → t.config = s.config → step s = .next s' →
    ∃ t', step t = .next t' ∧ sameToProgram s' t' ∧
      (s'.run = .running ↔ t'.run = .running) ∧ (s'.run = .halted ↔ t'.run = .halted) ∧
      sameStop s'.run t'.run

/-! ### What the instructions read and write -/

/-- The table of R23: an instruction changes no register outside its writes, and what it does to the
position, to memory, to the run state and to the register it writes depends on no register outside
its reads. -/
def Obligations.RegisterFootprintIsTheTable : Prop :=
  ∀ (i : Instr) (s t : State) (regs' : Vector Word 32), s.run = .running →
    exec i s = .next t →
    (∀ r ∈ readsOf i, readReg r { s with regs := regs' } = readReg r s) →
    (∀ r, r ∉ writesOf i → readReg r t = readReg r s) ∧
    ∃ u, exec i { s with regs := regs' } = .next u ∧
      u.pos = t.pos ∧ u.dm = t.dm ∧ u.run = t.run ∧
      (t.run = .running → ∀ r ∈ writesOf i, readReg r u = readReg r t) ∧
      (∀ r, r ∉ writesOf i → readReg r u = readReg r { s with regs := regs' })

/-- The fields R84 lists are ignored by execution, whatever they hold: any two values give the same
outcome. Bits 20..0 of NOP and BREAK words are ignored by the decoder. -/
def Obligations.IgnoredFieldsDoNotMatter : Prop :=
  (∀ (rm rn rd : RegIdx) (shamt shamt' : BitVec 6) (s : State),
    exec (.add rm shamt rn rd) s = exec (.add rm shamt' rn rd) s ∧
    exec (.sub rm shamt rn rd) s = exec (.sub rm shamt' rn rd) s ∧
    exec (.and rm shamt rn rd) s = exec (.and rm shamt' rn rd) s ∧
    exec (.orr rm shamt rn rd) s = exec (.orr rm shamt' rn rd) s ∧
    exec (.eor rm shamt rn rd) s = exec (.eor rm shamt' rn rd) s) ∧
  (∀ (rm rm' rn rn' rd : RegIdx) (shamt : BitVec 6) (s : State),
    exec (.lsl rm shamt rn rd) s = exec (.lsl rm' shamt rn' rd) s ∧
    exec (.lsr rm shamt rn rd) s = exec (.lsr rm' shamt rn' rd) s ∧
    exec (.asr rm shamt rn rd) s = exec (.asr rm' shamt rn' rd) s) ∧
  (∀ (dtaddr : BitVec 9) (op2 op2' : BitVec 2) (rn rt : RegIdx) (s : State),
    exec (.ldur dtaddr op2 rn rt) s = exec (.ldur dtaddr op2' rn rt) s ∧
    exec (.stur dtaddr op2 rn rt) s = exec (.stur dtaddr op2' rn rt) s) ∧
  (∀ (sc sc' : BitVec 2) (f f' : BitVec 16) (rd rd' : RegIdx) (s : State),
    exec (.movz sc f rd) s = exec (.movz sc' f' rd') s ∧
    exec (.movk sc f rd) s = exec (.movk sc' f' rd') s) ∧
  (∀ (w w' : Word), keyOf w = keyOf w' → (keyOf w = 0 ∨ keyOf w = 2038) → dec w = dec w')

/-! ### The instructions -/

/-- ADD and SUB write the wrapped sum and difference of the signed readings of `rn` and `rm`, go on to the
next position and change nothing else, for every register as source or destination (R171, R172). The
wrap-around is decision D1 of the spec, register 31 as an ordinary register D2. -/
def Obligations.AddAndSubWriteTheWrappedResult : Prop :=
  ∀ (rm : RegIdx) (shamt : BitVec 6) (rn rd : RegIdx) (s : State),
    (∃ t, exec (.add rm shamt rn rd) s = .next t ∧
      completesWriting rd (wrap32 (sint (readReg rn s) + sint (readReg rm s))) s t) ∧
    (∃ t, exec (.sub rm shamt rn rd) s = .next t ∧
      completesWriting rd (wrap32 (sint (readReg rn s) - sint (readReg rm s))) s t)

/-- AND, ORR and EOR act on each of the 32 bit positions by itself, write `rd`, go on to the next position
and change nothing else (R173, R174, R175). -/
def Obligations.LogicActsBitByBit : Prop :=
  ∀ (rm : RegIdx) (shamt : BitVec 6) (rn rd : RegIdx) (s : State),
    (∃ t v, exec (.and rm shamt rn rd) s = .next t ∧ completesWriting rd v s t ∧
      ∀ k, k < 32 → v.getLsbD k = ((readReg rn s).getLsbD k && (readReg rm s).getLsbD k)) ∧
    (∃ t v, exec (.orr rm shamt rn rd) s = .next t ∧ completesWriting rd v s t ∧
      ∀ k, k < 32 → v.getLsbD k = ((readReg rn s).getLsbD k || (readReg rm s).getLsbD k)) ∧
    (∃ t v, exec (.eor rm shamt rn rd) s = .next t ∧ completesWriting rd v s t ∧
      ∀ k, k < 32 → v.getLsbD k = ((readReg rn s).getLsbD k != (readReg rm s).getLsbD k))

/-- ADDI and SUBI write the wrapped sum and difference of `rn` and the sign-extended immediate, go on to the
next position and change nothing else (R176, R177). The wrap-around is decision D1 of the spec. -/
def Obligations.AddiAndSubiUseTheSignedImmediate : Prop :=
  ∀ (imm : Word) (rn rd : RegIdx) (s : State),
    (∃ t, exec (.addi imm rn rd) s = .next t ∧
      completesWriting rd (wrap32 (sint (readReg rn s) + sint imm)) s t) ∧
    (∃ t, exec (.subi imm rn rd) s = .next t ∧
      completesWriting rd (wrap32 (sint (readReg rn s) - sint imm)) s t)

/-- R178's law: the wrapped sum and difference have the bit pattern that the unsigned readings give, and
the exact signed value whenever that value fits in 32 bits. The wrap-around is decision D1. -/
def Obligations.SumsAgreeSignedAndUnsigned : Prop :=
  ∀ (a b : Word),
    uint (sumOf a b) = (uint a + uint b) % 2 ^ 32 ∧
    uint (differenceOf a b) = (uint a + (2 ^ 32 - uint b)) % 2 ^ 32 ∧
    (-(2 ^ 31 : Int) ≤ sint a + sint b → sint a + sint b < 2 ^ 31 →
      sint (sumOf a b) = sint a + sint b) ∧
    (-(2 ^ 31 : Int) ≤ sint a - sint b → sint a - sint b < 2 ^ 31 →
      sint (differenceOf a b) = sint a - sint b)

/-- LSL, LSR and ASR shift their own destination register by the unsigned 6-bit amount (R191, R192, R193):
bit `k` of the result is bit `k - shamt`, bit `k + shamt`, or that with copies of bit 31 above; they go
on to the next position and change nothing else. Amounts of 32 and more are decision D7 (R194). -/
def Obligations.ShiftsMoveTheBitsOfTheirDestination : Prop :=
  ∀ (rm : RegIdx) (shamt : BitVec 6) (rn rd : RegIdx) (s : State),
    (∃ t v, exec (.lsl rm shamt rn rd) s = .next t ∧ completesWriting rd v s t ∧
      ∀ k, k < 32 → v.getLsbD k =
        (decide (shamt.toNat ≤ k) && (readReg rd s).getLsbD (k - shamt.toNat))) ∧
    (∃ t v, exec (.lsr rm shamt rn rd) s = .next t ∧ completesWriting rd v s t ∧
      ∀ k, k < 32 → v.getLsbD k = (readReg rd s).getLsbD (k + shamt.toNat)) ∧
    (∃ t v, exec (.asr rm shamt rn rd) s = .next t ∧ completesWriting rd v s t ∧
      ∀ k, k < 32 → v.getLsbD k = (readReg rd s).getLsbD (min (k + shamt.toNat) 31))

/-- Shift amounts of 32 and more (R194, decision D7 of the spec): LSL and LSR give 0, ASR gives 0 or all
ones by the sign; an amount of 0 leaves the value; and ASR equals LSR on a non-negative value. -/
def Obligations.WideShiftsClearOrFill : Prop :=
  ∀ (v : Word) (shamt : BitVec 6),
    (32 ≤ shamt.toNat → shiftLeft v shamt = 0 ∧ shiftRightLogical v shamt = 0 ∧
      shiftRightArith v shamt = if sint v < 0 then wrap32 (-1) else 0) ∧
    (shamt.toNat = 0 → shiftLeft v shamt = v ∧ shiftRightLogical v shamt = v ∧
      shiftRightArith v shamt = v) ∧
    (0 ≤ sint v → shiftRightArith v shamt = shiftRightLogical v shamt)

/-- LDUR at a legal address writes the word that data memory holds there to `rt`, or 0 where it holds none
and LOAD_UNDEFINED is `zero`; it goes on to the next position and changes nothing else, the base
register included unless it is `rt` (R200, R201). LOAD_UNDEFINED is decision D8 of the spec. -/
def Obligations.LoadWritesTheWordAtTheAddress : Prop :=
  ∀ (dtaddr : BitVec 9) (op2 : BitVec 2) (rn rt : RegIdx) (s : State) (v : Word),
    legalAddress (effectiveAddress rn dtaddr s) →
    (memGet s.dm (effectiveAddress rn dtaddr s).toNat = some v ∨
      (memGet s.dm (effectiveAddress rn dtaddr s).toNat = none ∧
        s.config.loadUndefined = .zero ∧ v = 0)) →
    effectiveAddress rn dtaddr s = sint (readReg rn s) + 4 * (dtaddr.toNat : Int) ∧
    ∃ t, exec (.ldur dtaddr op2 rn rt) s = .next t ∧ completesWriting rt v s t

/-- STUR at a legal address stores the register `rt` there, defining the word if it was undefined; every other
address and every register is unchanged, and it goes on to the next position (R56, R202). That no other
address becomes defined is decision D18 of the spec. -/
def Obligations.StoreSetsTheOneWord : Prop :=
  ∀ (dtaddr : BitVec 9) (op2 : BitVec 2) (rn rt : RegIdx) (s : State),
    legalAddress (effectiveAddress rn dtaddr s) →
    effectiveAddress rn dtaddr s = sint (readReg rn s) + 4 * (dtaddr.toNat : Int) ∧
    ∃ t, exec (.stur dtaddr op2 rn rt) s = .next t ∧
      setsWord (effectiveAddress rn dtaddr s).toNat (readReg rt s) s t ∧
      keepsRegs s t ∧ keepsControl s t ∧ t.pos = s.pos + 1

/-- LDUR and STUR at an address that is not legal end the run on the first check that fails, in the order of
R53, and change nothing else; so does LDUR at a legal address that holds no word when LOAD_UNDEFINED is
`fault`. Rests on decisions D8, D9, D11 and D25 of the spec. -/
def Obligations.BadAddressesFaultInOrder : Prop :=
  ∀ (dtaddr : BitVec 9) (op2 : BitVec 2) (rn rt : RegIdx) (s : State),
    (¬ legalAddress (effectiveAddress rn dtaddr s) →
      let ea := effectiveAddress rn dtaddr s
      let cause := if ea < 0 then Cause.addressNegative ea
        else if 2 ^ 31 - 1 < ea then .addressRange ea else .addressUnaligned ea
      (∃ t, exec (.ldur dtaddr op2 rn rt) s = .next t ∧ endsInFault cause s t) ∧
      (∃ t, exec (.stur dtaddr op2 rn rt) s = .next t ∧ endsInFault cause s t)) ∧
    (legalAddress (effectiveAddress rn dtaddr s) →
      memGet s.dm (effectiveAddress rn dtaddr s).toNat = none →
      s.config.loadUndefined = .fault →
      ∃ t, exec (.ldur dtaddr op2 rn rt) s = .next t ∧
        endsInFault (.undefinedLoad (effectiveAddress rn dtaddr s)) s t)

/-- After a STUR that did not fault, a LDUR whose base and displacement have the same sum reads back exactly
the bits stored, in every state whose memory still holds that word (R203; that one sum names one word
is the spec's own inference). -/
def Obligations.LoadReadsBackTheStoredWord : Prop :=
  ∀ (dtaddr dtaddr' : BitVec 9) (op2 op2' : BitVec 2) (rn rt rn' rt' : RegIdx) (s t u : State),
    s.run = .running → exec (.stur dtaddr op2 rn rt) s = .next t → t.run = .running →
    effectiveAddress rn' dtaddr' u = effectiveAddress rn dtaddr s →
    memGet u.dm (effectiveAddress rn dtaddr s).toNat =
      memGet t.dm (effectiveAddress rn dtaddr s).toNat →
    ∃ v, exec (.ldur dtaddr' op2' rn' rt') u = .next v ∧ readReg rt' v = readReg rt s

/-- B moves the position by its signed offset whatever the registers hold and changes nothing else (R211);
it never faults itself (R215). -/
def Obligations.BranchMovesByItsOffset : Prop :=
  ∀ (offset : Word) (s : State),
    ∃ t, exec (.b offset) s = .next t ∧ completesMoving (sint offset) s t

/-- CBZ and CBNZ move the position by the offset when the register they name is zero, respectively not zero,
and by 1 otherwise, and change nothing else (R212, R213). That they test the register's value is
decision D6 of the spec. -/
def Obligations.ConditionalBranchesTestTheRegister : Prop :=
  ∀ (offset : Word) (cond : RegIdx) (s : State),
    (∃ t, exec (.cbz offset cond) s = .next t ∧
      completesMoving (if uint (readReg cond s) = 0 then sint offset else 1) s t) ∧
    (∃ t, exec (.cbnz offset cond) s = .next t ∧
      completesMoving (if uint (readReg cond s) = 0 then 1 else sint offset) s t)

/-- MOVZ, MOVK and NOP change no register and no memory word and go on to the next position (R220, R221,
R222). -/
def Obligations.MovesAndNopOnlyAdvance : Prop :=
  ∀ (shiftcode : BitVec 2) (field : BitVec 16) (rd : RegIdx) (s : State),
    (∃ t, exec (.movz shiftcode field rd) s = .next t ∧ completesMoving 1 s t) ∧
    (∃ t, exec (.movk shiftcode field rd) s = .next t ∧ completesMoving 1 s t) ∧
    (∃ t, exec .nop s = .next t ∧ completesMoving 1 s t)

/-- `exec` of BREAK ends the run: the run state becomes HALTED and nothing else changes, which is the halt
of R152. R155 and R223 say that BREAK is never dispatched or executed: that the halt is `exec`'s answer for
BREAK is the model's split of the step (DESIGN CHOICE, notes/assumptions/7.md); what a step does on
fetching BREAK is stated by BreakHaltsAndChangesNothingElse. -/
def Obligations.BreakEndsTheRun : Prop :=
  ∀ (s : State), exec .brk s = .next { s with run := .halted }

/-! ### The trace block -/

/-- The parts of a trace block are those of its record (R235): cycle, address and instruction text; the
32 registers in four labelled rows of 8, signed; and all defined data memory in the record's order in
rows of 8, the last of which may be shorter, each with the address of its first word. That a gap between
addresses starts no new row is the model's choice (DESIGN CHOICE, notes/assumptions/23.md). -/
def Obligations.TraceBlockShowsTheRecord : Prop :=
  ∀ t : TraceRecord,
    (traceBlock t).cycle = t.cycle ∧ (traceBlock t).address = t.pc ∧
    (traceBlock t).text = instructionText t.inst ∧
    (traceBlock t).registerRows.map Prod.fst = ["r00:", "r08:", "r16:", "r24:"] ∧
    (∀ row ∈ (traceBlock t).registerRows, row.2.length = 8) ∧
    ((traceBlock t).registerRows.map Prod.snd).flatten = t.regs.toList.map sint ∧
    ((traceBlock t).memoryRows.map MemoryRow.cells).flatten =
      (t.dm.map fun c => (c.1, sint c.2)) ∧
    ∀ (k : Nat) (row : MemoryRow), (traceBlock t).memoryRows[k]? = some row →
      row.cells.head?.map Prod.fst = some row.start ∧ row.cells.length ≤ 8 ∧
      (k + 1 < (traceBlock t).memoryRows.length → row.cells.length = 8)
end

