-- ==== Sys2Proof/Laws/Word.lean ====
section
/-! SUPPORT. The readings of a word in the terms the library's lemmas use. -/

namespace Sys2Proof

@[simp] theorem sint_eq (v : Word) : sint v = v.toInt := rfl
@[simp] theorem uint_eq (v : Word) : uint v = v.toNat := rfl
@[simp] theorem wrap32_eq (n : Int) : wrap32 n = BitVec.ofInt 32 n := rfl

end Sys2Proof
end

