-- ==== Sys2Proof/Laws/Decode.lean ====
section
/-! SUPPORT. The layouts read back: each field of a packed word, and the key of each layout; what an
encoded signed field extends to; and when a record is BREAK. -/

namespace Sys2Proof

/-- A bit field as a number (R11). -/
theorem bitsAt_toNat (lo len : Nat) (w : Word) :
    (bitsAt lo len w).toNat = w.toNat / 2 ^ lo % 2 ^ len := by
  simp [bitsAt, Nat.shiftRight_eq_div_pow]

/-! ### R layout (R72) -/

section R
variable (op : BitVec 11) (rm : RegIdx) (shamt : BitVec 6) (rn rd : RegIdx)

theorem packR_key : keyOf (packR op rm shamt rn rd) = op := by
  apply BitVec.eq_of_toNat_eq
  simp only [keyOf, packR, bitsAt_toNat, BitVec.toNat_ofNat]
  omega

theorem packR_rm : bitsAt 16 5 (packR op rm shamt rn rd) = rm := by
  apply BitVec.eq_of_toNat_eq
  simp only [packR, bitsAt_toNat, BitVec.toNat_ofNat]
  omega

theorem packR_shamt : bitsAt 10 6 (packR op rm shamt rn rd) = shamt := by
  apply BitVec.eq_of_toNat_eq
  simp only [packR, bitsAt_toNat, BitVec.toNat_ofNat]
  omega

theorem packR_rn : bitsAt 5 5 (packR op rm shamt rn rd) = rn := by
  apply BitVec.eq_of_toNat_eq
  simp only [packR, bitsAt_toNat, BitVec.toNat_ofNat]
  omega

theorem packR_rd : bitsAt 0 5 (packR op rm shamt rn rd) = rd := by
  apply BitVec.eq_of_toNat_eq
  simp only [packR, bitsAt_toNat, BitVec.toNat_ofNat]
  omega

end R

/-! ### D layout (R73) -/

section D
variable (op : BitVec 11) (dtaddr : BitVec 9) (op2 : BitVec 2) (rn rt : RegIdx)

theorem packD_key : keyOf (packD op dtaddr op2 rn rt) = op := by
  apply BitVec.eq_of_toNat_eq
  simp only [keyOf, packD, bitsAt_toNat, BitVec.toNat_ofNat]
  omega

theorem packD_dtaddr : bitsAt 12 9 (packD op dtaddr op2 rn rt) = dtaddr := by
  apply BitVec.eq_of_toNat_eq
  simp only [packD, bitsAt_toNat, BitVec.toNat_ofNat]
  omega

theorem packD_op2 : bitsAt 10 2 (packD op dtaddr op2 rn rt) = op2 := by
  apply BitVec.eq_of_toNat_eq
  simp only [packD, bitsAt_toNat, BitVec.toNat_ofNat]
  omega

theorem packD_rn : bitsAt 5 5 (packD op dtaddr op2 rn rt) = rn := by
  apply BitVec.eq_of_toNat_eq
  simp only [packD, bitsAt_toNat, BitVec.toNat_ofNat]
  omega

theorem packD_rt : bitsAt 0 5 (packD op dtaddr op2 rn rt) = rt := by
  apply BitVec.eq_of_toNat_eq
  simp only [packD, bitsAt_toNat, BitVec.toNat_ofNat]
  omega

end D

/-! ### I layout (R74): the top bit of the immediate is the low bit of the key -/

section I
variable (op : BitVec 10) (imm : Word) (rn rd : RegIdx)

theorem packI_key :
    (keyOf (packI op imm rn rd)).toNat = op.toNat * 2 + imm.toNat % 2 ^ 12 / 2 ^ 11 := by
  simp only [keyOf, packI, bitsAt_toNat, BitVec.toNat_ofNat]
  omega

theorem packI_imm : bitsAt 10 12 (packI op imm rn rd) = bitsAt 0 12 imm := by
  apply BitVec.eq_of_toNat_eq
  simp only [packI, bitsAt_toNat, BitVec.toNat_ofNat]
  omega

theorem packI_rn : bitsAt 5 5 (packI op imm rn rd) = rn := by
  apply BitVec.eq_of_toNat_eq
  simp only [packI, bitsAt_toNat, BitVec.toNat_ofNat]
  omega

theorem packI_rd : bitsAt 0 5 (packI op imm rn rd) = rd := by
  apply BitVec.eq_of_toNat_eq
  simp only [packI, bitsAt_toNat, BitVec.toNat_ofNat]
  omega

end I

/-! ### B layout (R75): the top five bits of the offset are the low bits of the key -/

section B
variable (op : BitVec 6) (offset : Word)

theorem packB_key :
    (keyOf (packB op offset)).toNat = op.toNat * 32 + offset.toNat % 2 ^ 26 / 2 ^ 21 := by
  simp only [keyOf, packB, bitsAt_toNat, BitVec.toNat_ofNat]
  omega

theorem packB_offset : bitsAt 0 26 (packB op offset) = bitsAt 0 26 offset := by
  apply BitVec.eq_of_toNat_eq
  simp only [packB, bitsAt_toNat, BitVec.toNat_ofNat]
  omega

end B

/-! ### CB layout (R76): the top three bits of the offset are the low bits of the key -/

section CB
variable (op : BitVec 8) (offset : Word) (cond : RegIdx)

theorem packCB_key :
    (keyOf (packCB op offset cond)).toNat = op.toNat * 8 + offset.toNat % 2 ^ 19 / 2 ^ 16 := by
  simp only [keyOf, packCB, bitsAt_toNat, BitVec.toNat_ofNat]
  omega

theorem packCB_offset : bitsAt 5 19 (packCB op offset cond) = bitsAt 0 19 offset := by
  apply BitVec.eq_of_toNat_eq
  simp only [packCB, bitsAt_toNat, BitVec.toNat_ofNat]
  omega

theorem packCB_cond : bitsAt 0 5 (packCB op offset cond) = cond := by
  apply BitVec.eq_of_toNat_eq
  simp only [packCB, bitsAt_toNat, BitVec.toNat_ofNat]
  omega

end CB

/-! ### IM layout (R77): the shift code is the low bits of the key -/

section IM
variable (op : BitVec 9) (shiftcode : BitVec 2) (field : BitVec 16) (rd : RegIdx)

theorem packIM_key :
    (keyOf (packIM op shiftcode field rd)).toNat = op.toNat * 4 + shiftcode.toNat := by
  simp only [keyOf, packIM, bitsAt_toNat, BitVec.toNat_ofNat]
  omega

theorem packIM_shiftcode : bitsAt 21 2 (packIM op shiftcode field rd) = shiftcode := by
  apply BitVec.eq_of_toNat_eq
  simp only [packIM, bitsAt_toNat, BitVec.toNat_ofNat]
  omega

theorem packIM_field : bitsAt 5 16 (packIM op shiftcode field rd) = field := by
  apply BitVec.eq_of_toNat_eq
  simp only [packIM, bitsAt_toNat, BitVec.toNat_ofNat]
  omega

theorem packIM_rd : bitsAt 0 5 (packIM op shiftcode field rd) = rd := by
  apply BitVec.eq_of_toNat_eq
  simp only [packIM, bitsAt_toNat, BitVec.toNat_ofNat]
  omega

end IM

/-! ### Signed fields -/

/-- A signed value that fits in its field is what the field extends to (R79, R80). -/
theorem sext_of_fits {n : Nat} (h0 : 0 < n) (h : n ≤ 32) {v : Word} (hv : fitsSigned n v = true) :
    sext (bitsAt 0 n v) = v := by
  have hb : -(2 ^ (n - 1) : Int) ≤ v.toInt ∧ v.toInt < (2 ^ (n - 1) : Int) := by
    simpa [fitsSigned] using hv
  apply BitVec.eq_of_toInt_eq
  have he : bitsAt 0 n v = v.setWidth n := by
    apply BitVec.eq_of_toNat_eq
    simp [bitsAt]
  have hn : (2 : Int) ^ n = 2 * 2 ^ (n - 1) := by
    rw [← pow_succ']
    congr 1
    omega
  have hm : (v.setWidth n).toInt = v.toInt.bmod (2 ^ n) := by
    rw [BitVec.toInt_setWidth, BitVec.toInt_eq_toNat_bmod v, Int.bmod_bmod_of_dvd]
    exact Nat.pow_dvd_pow 2 h
  rw [sext, BitVec.toInt_signExtend_of_le h, he, hm]
  apply Int.bmod_eq_of_le <;> push_cast <;> omega

/-- Every extended field fits in its width (R80). -/
theorem fits_of_sext {n : Nat} (h : n ≤ 32) (v : BitVec n) :
    fitsSigned n (sext v) = true := by
  have h1 := BitVec.toInt_lt (x := v)
  have h2 := BitVec.le_toInt (x := v)
  simp only [fitsSigned, sext, BitVec.toInt_signExtend_of_le h, Bool.and_eq_true,
    decide_eq_true_eq]
  exact ⟨h2, h1⟩

/-! ### Classification -/

/-- The row an if-then-else of rows gives is that of one of its branches. -/
theorem row_of_ite {p : Prop} [Decidable p] {a b : Option Mnemonic × Format} {m : Mnemonic}
    (h : (if p then a else b).1 = some m) : (p ∧ a.1 = some m) ∨ b.1 = some m := by
  by_cases hp : p
  · exact .inl ⟨hp, by simpa [hp] using h⟩
  · exact .inr (by simpa [hp] using h)

/-- A key CLS gives a row for lies in the range of that row (R85). -/
theorem keyRange_of_cls {key : Key} {m : Mnemonic} (h : (cls key).1 = some m) :
    (keyRange m).1 ≤ key.toNat ∧ key.toNat ≤ (keyRange m).2 := by
  unfold cls at h
  dsimp only at h
  iterate 19
    rcases row_of_ite h with ⟨hp, e⟩ | h
    · cases e
      simp only [keyRange]
      omega
  cases h

/-- CLS gives every key of a row's range that row (R85). -/
theorem cls_of_keyRange {key : Key} {m : Mnemonic}
    (h : (keyRange m).1 ≤ key.toNat ∧ key.toNat ≤ (keyRange m).2) : (cls key).1 = some m := by
  obtain ⟨n, hn⟩ : ∃ n, n = key.toNat := ⟨_, rfl⟩
  have hk : key = BitVec.ofNat 11 n := by simp [hn]
  rw [← hn] at h
  subst hk
  obtain ⟨h1, h2⟩ := h
  clear hn
  cases m <;> simp only [keyRange] at h1 h2 <;> interval_cases n <;> rfl

/-- CLS gives a row exactly for the keys of its range (R85, R110). -/
theorem cls_eq_some_iff (key : Key) (m : Mnemonic) :
    (cls key).1 = some m ↔ (keyRange m).1 ≤ key.toNat ∧ key.toNat ≤ (keyRange m).2 :=
  ⟨keyRange_of_cls, cls_of_keyRange⟩

/-- CLS answers BREAK for key 2038 alone (R85, R89). -/
theorem cls_break_iff (key : Key) : (cls key).1 = some .BREAK ↔ key = 2038 := by
  rw [cls_eq_some_iff]
  constructor
  · intro h
    exact BitVec.eq_of_toNat_eq (Nat.le_antisymm h.2 h.1)
  · rintro rfl
    decide

/-- Slicing a word as a row gives an instruction of that row. -/
@[simp] theorem sliceAs_mnemonic (m : Mnemonic) (w : Word) : (sliceAs m w).mnemonic = m := by
  cases m <;> rfl

/-- What DEC gives for a word whose key CLS finds a row for (R113). -/
theorem dec_of_cls {w : Word} {m : Mnemonic} (h : (cls (keyOf w)).1 = some m) :
    dec w = .instr (sliceAs m w) := by simp [dec, h]

/-- The decoder makes an INVALID record exactly where CLS finds no row, and keeps the key (R87, R121). -/
theorem dec_invalid_iff (w : Word) (key : Key) :
    dec w = .invalid key ↔ (cls (keyOf w)).1 = none ∧ keyOf w = key := by
  cases h : (cls (keyOf w)).1 <;> simp [dec, h]

/-- A decoded instruction is its row's slicing of the word, and CLS gives that row (R110, R113). -/
theorem dec_instr_iff (w : Word) (i : Instr) :
    dec w = .instr i ↔ (cls (keyOf w)).1 = some i.mnemonic ∧ sliceAs i.mnemonic w = i := by
  cases h : (cls (keyOf w)).1 with
  | none => simp [dec, h]
  | some m =>
    simp only [dec, h, Decoded.instr.injEq, Option.some.injEq]
    constructor
    · rintro rfl
      simp
    · rintro ⟨rfl, hi⟩
      exact hi

/-- The same for the instruction the decoder gives. -/
theorem decode_eq_some_iff (w : Word) (i : Instr) :
    decode w = some i ↔ (cls (keyOf w)).1 = some i.mnemonic ∧ sliceAs i.mnemonic w = i := by
  rw [← dec_instr_iff]
  unfold decode
  cases dec w <;> simp

/-- A word's record ends the program exactly when its key is 2038 (R89, R127). -/
theorem recordOf_isBreak_iff (a : Int) (w : Word) :
    (recordOf a w).isBreak = true ↔ keyOf w = 2038 := by
  rw [← cls_break_iff]
  cases h : (cls (keyOf w)).1 with
  | none => simp [recordOf, Record.isBreak, dec, h]
  | some m => cases m <;> simp [recordOf, Record.isBreak, dec, h, sliceAs]

end Sys2Proof
end

