-- ==== Sys2Proof/Laws/Memory.lean ====
section
/-! SUPPORT. Data memory: what a read gives after a write, that a write keeps the canonical form, and
what the checked accesses can answer. -/

namespace Sys2Proof.Machine

/-- A read at the address written gives the value written (R56). -/
@[simp] theorem memGet_memPut_same (m : Memory) (a : Nat) (v : Word) :
    memGet (memPut m a v) a = some v := by
  induction m with
  | nil => simp [memPut, memGet]
  | cons c cs ih =>
    unfold memPut
    split
    · simp [memGet]
    · split
      · simp [memGet]
      · rename_i h
        simp [memGet, Ne.symm h, ih]

/-- A write leaves every other address alone, the undefined ones included (R56). -/
theorem memGet_memPut_other (m : Memory) {a b : Nat} (h : b ≠ a) (v : Word) :
    memGet (memPut m a v) b = memGet m b := by
  induction m with
  | nil => simp [memPut, memGet, Ne.symm h]
  | cons c cs ih =>
    unfold memPut
    split
    · simp [memGet, Ne.symm h]
    · split
      · rename_i e
        simp [memGet, ← e, Ne.symm h]
      · simp [memGet, ih]

/-- A write of an address above `a` keeps a list above `a`. -/
theorem aboveAll_memPut {a b : Nat} (m : Memory) (v : Word) (hb : a < b) (h : aboveAll a m = true) :
    aboveAll a (memPut m b v) = true := by
  induction m with
  | nil => simpa [memPut, aboveAll] using hb
  | cons c cs ih =>
    have h1 : a < c.1 ∧ aboveAll a cs = true := by simpa [aboveAll] using h
    unfold memPut
    split
    · simpa [aboveAll, hb] using h
    · split
      · simpa [aboveAll, hb] using h1.2
      · simpa [aboveAll, h1.1] using ih h1.2

/-- A list above an address is above every smaller one. -/
theorem aboveAll_mono {a b : Nat} (m : Memory) (hab : a ≤ b) (h : aboveAll b m = true) :
    aboveAll a m = true := by
  simp only [aboveAll, List.all_eq_true, decide_eq_true_eq] at h ⊢
  intro c hc
  have := h c hc
  omega

/-- Every write at a multiple of 4 keeps the canonical form. -/
theorem memWf_memPut (m : Memory) (a : Nat) (v : Word) (ha : a % 4 = 0) (h : memWf m = true) :
    memWf (memPut m a v) = true := by
  induction m with
  | nil => simp [memPut, memWf, aboveAll, ha]
  | cons c cs ih =>
    have h1 : (c.1 % 4 = 0 ∧ aboveAll c.1 cs = true) ∧ memWf cs = true := by
      simpa [memWf] using h
    unfold memPut
    split
    · rename_i hlt
      have hall : aboveAll a (c :: cs) = true := by
        simp only [aboveAll, List.all_cons, Bool.and_eq_true, decide_eq_true_eq]
        exact ⟨hlt, aboveAll_mono cs hlt.le h1.1.2⟩
      simp [memWf, ha, hall, h1]
    · split
      · rename_i _ he
        simp [memWf, he, h1]
      · rename_i hnlt hne
        simp [memWf, h1, ih h1.2, aboveAll_memPut cs v (by omega : c.1 < a) h1.1.2]

/-- An address below every listed one is undefined. -/
theorem memGet_none_of_aboveAll {a b : Nat} (m : Memory) (hb : b ≤ a) (h : aboveAll a m = true) :
    memGet m b = none := by
  induction m with
  | nil => rfl
  | cons c cs ih =>
    have h1 : a < c.1 ∧ aboveAll a cs = true := by simpa [aboveAll] using h
    have : c.1 ≠ b := by omega
    simp [memGet, this, ih h1.2]

/-- An address passes the check exactly when it is not negative, at most 2^31 - 4 and a multiple of 4
(R53). -/
theorem addressCheck_eq_none (ea : Int) :
    addressCheck ea = none ↔ 0 ≤ ea ∧ ea ≤ 2 ^ 31 - 4 ∧ ea % 4 = 0 := by
  unfold addressCheck Config.maxAddress
  split
  · constructor <;> intro h
    · cases h
    · omega
  · split
    · constructor <;> intro h
      · cases h
      · omega
    · split
      · constructor <;> intro h
        · cases h
        · omega
      · constructor <;> intro h
        · omega
        · rfl

/-- Where the check fails it names the first condition of R53 that holds (R54). -/
theorem addressCheck_of_illegal (ea : Int) (h : addressCheck ea ≠ none) :
    addressCheck ea = some (if ea < 0 then .addressNegative ea
      else if 2 ^ 31 - 1 < ea then .addressRange ea else .addressUnaligned ea) := by
  revert h
  unfold addressCheck Config.maxAddress
  split
  · simp
  · split
    · simp
    · split
      · simp
      · simp

/-- The causes a memory access can raise (R251): never that of a position, an INVALID record, the
watchdog or a register index. -/
def Cause.isMemory : Cause → Bool
  | .addressNegative _ => true
  | .addressRange _ => true
  | .addressUnaligned _ => true
  | .undefinedLoad _ => true
  | .positionRange => false
  | .watchdog => false
  | .invalidInstruction => false
  | .registerIndex => false

/-- The causes a store can raise: those of its address (R202). -/
def Cause.isAddress : Cause → Bool
  | .addressNegative _ => true
  | .addressRange _ => true
  | .addressUnaligned _ => true
  | .undefinedLoad _ => false
  | .positionRange => false
  | .watchdog => false
  | .invalidInstruction => false
  | .registerIndex => false

theorem Cause.isMemory_of_isAddress {cause : Cause} (h : cause.isAddress = true) :
    cause.isMemory = true := by cases cause <;> simp_all [Cause.isAddress, Cause.isMemory]

theorem addressCheck_isAddress {ea : Int} {cause : Cause} (h : addressCheck ea = some cause) :
    cause.isAddress = true := by
  revert h
  unfold addressCheck
  split
  · rintro ⟨⟩; rfl
  · split
    · rintro ⟨⟩; rfl
    · split
      · rintro ⟨⟩; rfl
      · rintro ⟨⟩

/-- What a checked load can answer (R53, R55): a failed check; the word; or, at a legal address that
holds none, what LOAD_UNDEFINED says. -/
theorem memRead_cases (ea : Int) (s : State) :
    (∃ cause, addressCheck ea = some cause ∧ memRead ea s = .error cause) ∨
    (addressCheck ea = none ∧ ∃ v, memGet s.dm ea.toNat = some v ∧ memRead ea s = .ok v) ∨
    (addressCheck ea = none ∧ memGet s.dm ea.toNat = none ∧ s.config.loadUndefined = .fault ∧
      memRead ea s = .error (.undefinedLoad ea)) ∨
    (addressCheck ea = none ∧ memGet s.dm ea.toNat = none ∧ s.config.loadUndefined = .zero ∧
      memRead ea s = .ok 0) := by
  unfold memRead
  cases hc : addressCheck ea with
  | some cause => exact .inl ⟨cause, rfl, rfl⟩
  | none =>
    cases hg : memGet s.dm ea.toNat with
    | some v => exact .inr (.inl ⟨rfl, v, rfl, by simp⟩)
    | none =>
      cases hl : s.config.loadUndefined with
      | fault => exact .inr (.inr (.inl ⟨rfl, rfl, rfl, by simp⟩))
      | zero => exact .inr (.inr (.inr ⟨rfl, rfl, rfl, by simp⟩))

/-- A load depends on data memory and on LOAD_UNDEFINED only. -/
theorem memRead_congr (ea : Int) {s t : State} (hd : t.dm = s.dm)
    (hc : t.config.loadUndefined = s.config.loadUndefined) : memRead ea t = memRead ea s := by
  unfold memRead
  rw [hd, hc]

/-- What a checked store can answer (R53, R56): a failed check, or the store. -/
theorem memWrite_cases (ea : Int) (v : Word) (s : State) :
    (∃ cause, addressCheck ea = some cause ∧ memWrite ea v s = .error cause) ∨
    (addressCheck ea = none ∧ memWrite ea v s = .ok (storeWord ea.toNat v s)) := by
  unfold memWrite
  cases addressCheck ea with
  | some cause => exact .inl ⟨cause, rfl, rfl⟩
  | none => exact .inr ⟨rfl, rfl⟩

end Sys2Proof.Machine
end

