-- ==== Sys2Proof/Laws/State.lean ====
section
/-! SUPPORT. One lemma for each field of State under each named update, and the registers and the
program counter under them, so that no proof unfolds a record update. -/

namespace Sys2Proof.Machine

/-! ### advance -/

@[simp] theorem advance_regs (delta : Int) (s : State) : (advance delta s).regs = s.regs := rfl
@[simp] theorem advance_pos (delta : Int) (s : State) : (advance delta s).pos = s.pos + delta := rfl
@[simp] theorem advance_cycle (delta : Int) (s : State) : (advance delta s).cycle = s.cycle := rfl
@[simp] theorem advance_run (delta : Int) (s : State) : (advance delta s).run = s.run := rfl
@[simp] theorem advance_dm (delta : Int) (s : State) : (advance delta s).dm = s.dm := rfl
@[simp] theorem advance_prog (delta : Int) (s : State) : (advance delta s).prog = s.prog := rfl
@[simp] theorem advance_trace (delta : Int) (s : State) : (advance delta s).trace = s.trace := rfl
@[simp] theorem advance_config (delta : Int) (s : State) :
    (advance delta s).config = s.config := rfl

/-! ### writeReg -/

@[simp] theorem writeReg_regs (i : RegIdx) (v : Word) (s : State) :
    (writeReg i v s).regs = s.regs.set i.toNat v := rfl
@[simp] theorem writeReg_pos (i : RegIdx) (v : Word) (s : State) :
    (writeReg i v s).pos = s.pos := rfl
@[simp] theorem writeReg_cycle (i : RegIdx) (v : Word) (s : State) :
    (writeReg i v s).cycle = s.cycle := rfl
@[simp] theorem writeReg_run (i : RegIdx) (v : Word) (s : State) :
    (writeReg i v s).run = s.run := rfl
@[simp] theorem writeReg_dm (i : RegIdx) (v : Word) (s : State) : (writeReg i v s).dm = s.dm := rfl
@[simp] theorem writeReg_prog (i : RegIdx) (v : Word) (s : State) :
    (writeReg i v s).prog = s.prog := rfl
@[simp] theorem writeReg_trace (i : RegIdx) (v : Word) (s : State) :
    (writeReg i v s).trace = s.trace := rfl
@[simp] theorem writeReg_config (i : RegIdx) (v : Word) (s : State) :
    (writeReg i v s).config = s.config := rfl

/-! ### raise -/

@[simp] theorem raise_regs (cause : Cause) (s : State) : (raise cause s).regs = s.regs := rfl
@[simp] theorem raise_pos (cause : Cause) (s : State) : (raise cause s).pos = s.pos := rfl
@[simp] theorem raise_cycle (cause : Cause) (s : State) : (raise cause s).cycle = s.cycle := rfl
@[simp] theorem raise_run (cause : Cause) (s : State) :
    (raise cause s).run = .faulted { cause := cause, address := s.pc, cycle := s.cycle + 1 } := rfl
@[simp] theorem raise_dm (cause : Cause) (s : State) : (raise cause s).dm = s.dm := rfl
@[simp] theorem raise_prog (cause : Cause) (s : State) : (raise cause s).prog = s.prog := rfl
@[simp] theorem raise_trace (cause : Cause) (s : State) : (raise cause s).trace = s.trace := rfl
@[simp] theorem raise_config (cause : Cause) (s : State) : (raise cause s).config = s.config := rfl

/-! ### halt -/

@[simp] theorem halt_regs (s : State) : (halt s).regs = s.regs := rfl
@[simp] theorem halt_pos (s : State) : (halt s).pos = s.pos := rfl
@[simp] theorem halt_cycle (s : State) : (halt s).cycle = s.cycle := rfl
@[simp] theorem halt_run (s : State) : (halt s).run = .halted := rfl
@[simp] theorem halt_dm (s : State) : (halt s).dm = s.dm := rfl
@[simp] theorem halt_prog (s : State) : (halt s).prog = s.prog := rfl
@[simp] theorem halt_trace (s : State) : (halt s).trace = s.trace := rfl
@[simp] theorem halt_config (s : State) : (halt s).config = s.config := rfl

/-! ### storeWord -/

@[simp] theorem storeWord_regs (a : Nat) (v : Word) (s : State) :
    (storeWord a v s).regs = s.regs := rfl
@[simp] theorem storeWord_pos (a : Nat) (v : Word) (s : State) :
    (storeWord a v s).pos = s.pos := rfl
@[simp] theorem storeWord_cycle (a : Nat) (v : Word) (s : State) :
    (storeWord a v s).cycle = s.cycle := rfl
@[simp] theorem storeWord_run (a : Nat) (v : Word) (s : State) :
    (storeWord a v s).run = s.run := rfl
@[simp] theorem storeWord_dm (a : Nat) (v : Word) (s : State) :
    (storeWord a v s).dm = memPut s.dm a v := rfl
@[simp] theorem storeWord_prog (a : Nat) (v : Word) (s : State) :
    (storeWord a v s).prog = s.prog := rfl
@[simp] theorem storeWord_trace (a : Nat) (v : Word) (s : State) :
    (storeWord a v s).trace = s.trace := rfl
@[simp] theorem storeWord_config (a : Nat) (v : Word) (s : State) :
    (storeWord a v s).config = s.config := rfl

/-! ### retire -/

@[simp] theorem retire_regs (pc : Int) (inst : Record) (s : State) :
    (retire pc inst s).regs = s.regs := rfl
@[simp] theorem retire_pos (pc : Int) (inst : Record) (s : State) :
    (retire pc inst s).pos = s.pos := rfl
@[simp] theorem retire_cycle (pc : Int) (inst : Record) (s : State) :
    (retire pc inst s).cycle = s.cycle + 1 := rfl
@[simp] theorem retire_run (pc : Int) (inst : Record) (s : State) :
    (retire pc inst s).run = s.run := rfl
@[simp] theorem retire_dm (pc : Int) (inst : Record) (s : State) :
    (retire pc inst s).dm = s.dm := rfl
@[simp] theorem retire_prog (pc : Int) (inst : Record) (s : State) :
    (retire pc inst s).prog = s.prog := rfl
@[simp] theorem retire_trace (pc : Int) (inst : Record) (s : State) :
    (retire pc inst s).trace = s.trace ++
      [{ cycle := s.cycle + 1, pc := pc, inst := inst, regs := s.regs, dm := s.dm }] := rfl
@[simp] theorem retire_config (pc : Int) (inst : Record) (s : State) :
    (retire pc inst s).config = s.config := rfl

/-! ### Registers and program counter -/

@[simp] theorem readReg_advance (r : RegIdx) (delta : Int) (s : State) :
    readReg r (advance delta s) = readReg r s := rfl
@[simp] theorem readReg_raise (r : RegIdx) (cause : Cause) (s : State) :
    readReg r (raise cause s) = readReg r s := rfl
@[simp] theorem readReg_halt (r : RegIdx) (s : State) : readReg r (halt s) = readReg r s := rfl
@[simp] theorem readReg_storeWord (r : RegIdx) (a : Nat) (v : Word) (s : State) :
    readReg r (storeWord a v s) = readReg r s := rfl
@[simp] theorem readReg_retire (r : RegIdx) (pc : Int) (inst : Record) (s : State) :
    readReg r (retire pc inst s) = readReg r s := rfl

/-- A register reads what was written to it, register 31 included (R22). -/
@[simp] theorem readReg_writeReg_same (r : RegIdx) (v : Word) (s : State) :
    readReg r (writeReg r v s) = v := by simp [readReg, writeReg]

/-- A write leaves every other register alone. -/
theorem readReg_writeReg_other {r i : RegIdx} (h : r ≠ i) (v : Word) (s : State) :
    readReg r (writeReg i v s) = readReg r s := by
  have h' : i.toNat ≠ r.toNat := fun e => h (BitVec.eq_of_toNat_eq e.symm)
  simp [readReg, writeReg, h']

/-- The program counter is the base address plus four times the position (R25). -/
theorem pc_eq (s : State) : s.pc = 96 + 4 * s.pos := rfl

/-- The address of a position (R25, R126). -/
theorem addressOf_eq (p : Int) : addressOf p = 96 + 4 * p := rfl

end Sys2Proof.Machine
end

