-- ==== Sys2Proof/Laws/Exec.lean ====
section
/-! SUPPORT. Everything an instruction can do, said once: `exec` always gives a next state, and that
state is one of five updates of the state before. -/

namespace Sys2Proof.Machine

/-- The ways an instruction ends. -/
inductive Effect (i : Instr) (s t : State) : Prop where
  /-- It moves the position only. -/
  | moves (delta : Int) (h : t = advance delta s)
  /-- It writes one register and goes on to the next position. -/
  | writes (rd : RegIdx) (v : Word) (h : t = advance 1 (writeReg rd v s))
  /-- It stores one word at a legal address and goes on to the next position. -/
  | stores (ea : Int) (v : Word) (legal : addressCheck ea = none)
      (h : t = advance 1 (storeWord ea.toNat v s))
  /-- It is LDUR or STUR and ends the run in a fault of its memory access. -/
  | faults (cause : Cause) (memory : cause.isMemory = true)
      (access : i.mnemonic = .LDUR ∨ (i.mnemonic = .STUR ∧ cause.isAddress = true))
      (h : t = raise cause s)
  /-- It is BREAK and ends the run. -/
  | halts (break_ : i = .brk) (h : t = halt s)

/-- LDUR, by the answer of its checked load (R201). -/
theorem execLdur_cases (dtaddr : BitVec 9) (op2 : BitVec 2) (rn rt : RegIdx) (s : State) :
    (∃ cause, memRead (effectiveAddress rn dtaddr s) s = .error cause ∧ cause.isMemory = true ∧
      execLdur dtaddr op2 rn rt s = .next (raise cause s)) ∨
    (∃ v, memRead (effectiveAddress rn dtaddr s) s = .ok v ∧
      execLdur dtaddr op2 rn rt s = .next (advance 1 (writeReg rt v s))) := by
  rcases memRead_cases (effectiveAddress rn dtaddr s) s with
    ⟨c, hc, h⟩ | ⟨_, v, _, h⟩ | ⟨_, _, _, h⟩ | ⟨_, _, _, h⟩
  · exact .inl ⟨c, h, Cause.isMemory_of_isAddress (addressCheck_isAddress hc),
      by simp [execLdur, h, doneFaulting]⟩
  · exact .inr ⟨v, h, by simp [execLdur, h, doneWriting]⟩
  · exact .inl ⟨_, h, rfl, by simp [execLdur, h, doneFaulting]⟩
  · exact .inr ⟨0, h, by simp [execLdur, h, doneWriting]⟩

/-- STUR, by the answer of its checked store (R202). -/
theorem execStur_cases (dtaddr : BitVec 9) (op2 : BitVec 2) (rn rt : RegIdx) (s : State) :
    (∃ cause, addressCheck (effectiveAddress rn dtaddr s) = some cause ∧
      cause.isAddress = true ∧ execStur dtaddr op2 rn rt s = .next (raise cause s)) ∨
    (addressCheck (effectiveAddress rn dtaddr s) = none ∧
      execStur dtaddr op2 rn rt s = .next (advance 1
        (storeWord (effectiveAddress rn dtaddr s).toNat (readReg rt s) s))) := by
  rcases memWrite_cases (effectiveAddress rn dtaddr s) (readReg rt s) s with ⟨c, hc, h⟩ | ⟨hc, h⟩
  · exact .inl ⟨c, hc, addressCheck_isAddress hc, by simp [execStur, h, doneFaulting]⟩
  · exact .inr ⟨hc, by simp [execStur, h, done]⟩

/-- Every instruction gives a next state, of one of the forms of Effect. -/
theorem exec_effect (i : Instr) (s : State) : ∃ t, exec i s = .next t ∧ Effect i s t := by
  cases i with
  | b offset => exact ⟨_, rfl, .moves _ rfl⟩
  | and rm shamt rn rd => exact ⟨_, rfl, .writes _ _ rfl⟩
  | add rm shamt rn rd => exact ⟨_, rfl, .writes _ _ rfl⟩
  | addi imm rn rd => exact ⟨_, rfl, .writes _ _ rfl⟩
  | orr rm shamt rn rd => exact ⟨_, rfl, .writes _ _ rfl⟩
  | cbz offset cond => exact ⟨_, rfl, .moves _ rfl⟩
  | cbnz offset cond => exact ⟨_, rfl, .moves _ rfl⟩
  | sub rm shamt rn rd => exact ⟨_, rfl, .writes _ _ rfl⟩
  | subi imm rn rd => exact ⟨_, rfl, .writes _ _ rfl⟩
  | movz shiftcode field rd => exact ⟨_, rfl, .moves _ rfl⟩
  | lsr rm shamt rn rd => exact ⟨_, rfl, .writes _ _ rfl⟩
  | lsl rm shamt rn rd => exact ⟨_, rfl, .writes _ _ rfl⟩
  | asr rm shamt rn rd => exact ⟨_, rfl, .writes _ _ rfl⟩
  | eor rm shamt rn rd => exact ⟨_, rfl, .writes _ _ rfl⟩
  | movk shiftcode field rd => exact ⟨_, rfl, .moves _ rfl⟩
  | stur dtaddr op2 rn rt =>
    rcases execStur_cases dtaddr op2 rn rt s with ⟨c, _, hc, h⟩ | ⟨hc, h⟩
    · exact ⟨_, h, .faults c (Cause.isMemory_of_isAddress hc) (.inr ⟨rfl, hc⟩) rfl⟩
    · exact ⟨_, h, .stores _ _ hc rfl⟩
  | ldur dtaddr op2 rn rt =>
    rcases execLdur_cases dtaddr op2 rn rt s with ⟨c, _, hc, h⟩ | ⟨v, _, h⟩
    · exact ⟨_, h, .faults c hc (.inl rfl) rfl⟩
    · exact ⟨_, h, .writes _ _ rfl⟩
  | nop => exact ⟨_, rfl, .moves _ rfl⟩
  | brk => exact ⟨_, rfl, .halts rfl rfl⟩

/-- The same, from a given outcome. -/
theorem exec_next_effect {i : Instr} {s t : State} (h : exec i s = .next t) : Effect i s t := by
  obtain ⟨u, hu, he⟩ := exec_effect i s
  rw [hu] at h
  cases h
  exact he

/-- No instruction writes the program store, the configuration, the cycle counter or the trace. -/
theorem exec_keeps {i : Instr} {s t : State} (h : exec i s = .next t) :
    t.prog = s.prog ∧ t.config = s.config ∧ t.cycle = s.cycle ∧ t.trace = s.trace := by
  rcases exec_next_effect h with ⟨_, rfl⟩ | ⟨_, _, rfl⟩ | ⟨_, _, _, rfl⟩ | ⟨_, _, _, rfl⟩ | ⟨_, rfl⟩ <;>
    simp

end Sys2Proof.Machine
end

