-- ==== Sys2Proof/Laws/Step.lean ====
section
/-! SUPPORT. Everything a step can do, said once (spec/41_execution_cycle.md R159). -/

namespace Sys2Proof.Machine

/-- The fetch fails exactly outside 0..b (R151). -/
theorem fetch_eq_none (s : State) : fetch s = none ↔ s.pos < 0 ∨ s.breakIndex < s.pos := by
  unfold fetch
  split
  · rename_i h
    have hlt : s.pos.toNat < s.prog.length := by
      have := h.2
      unfold State.breakIndex at this
      omega
    simp only [List.getElem?_eq_getElem hlt]
    constructor
    · rintro ⟨⟩
    · rintro (h' | h') <;> omega
  · rename_i h
    exact ⟨fun _ => by omega, fun _ => rfl⟩

/-- What a fetch gives stands in the program store at the position. -/
theorem fetch_eq_some {s : State} {r : Record} (h : fetch s = some r) :
    0 ≤ s.pos ∧ s.pos ≤ s.breakIndex ∧ s.prog[s.pos.toNat]? = some r := by
  unfold fetch at h
  split at h
  · rename_i hp
    exact ⟨hp.1, hp.2, h⟩
  · cases h

/-- The fetch looks at the program store and the position only. -/
theorem fetch_congr {s t : State} (hp : t.prog = s.prog) (hq : t.pos = s.pos) : fetch t = fetch s := by
  unfold fetch State.breakIndex
  rw [hp, hq]

/-- A record ends the program exactly when its body is BREAK. -/
theorem isBreak_iff (r : Record) : r.isBreak = true ↔ r.body = .instr .brk := by
  unfold Record.isBreak
  split
  · rename_i h; simp [h]
  · rename_i h
    constructor
    · rintro ⟨⟩
    · intro h'; exact absurd h' h

/-- The outcomes of a step (R159). -/
inductive StepCase (s : State) : State → Prop where
  /-- 1a: the position is outside the program. -/
  | position (h : fetch s = none) : StepCase s (raise .positionRange s)
  /-- 1c: BREAK is fetched. -/
  | halts (r : Record) (h : fetch s = some r) (brk : r.isBreak = true) : StepCase s (halt s)
  /-- 1d: the watchdog has expired. -/
  | watchdog (r : Record) (h : fetch s = some r) (brk : r.isBreak = false)
      (expired : watchdogExpired s = true) : StepCase s (raise .watchdog s)
  /-- 1e: INVALID is fetched. -/
  | invalid (r : Record) (h : fetch s = some r) (key : Key) (body : r.body = .invalid key)
      (alive : watchdogExpired s = false) : StepCase s (raise .invalidInstruction s)
  /-- 2: the instruction raises a fault of its memory access. -/
  | faults (r : Record) (h : fetch s = some r) (i : Instr) (body : r.body = .instr i)
      (alive : watchdogExpired s = false) (cause : Cause) (memory : cause.isMemory = true)
      (eff : exec i s = .next (raise cause s)) : StepCase s (raise cause s)
  /-- 2 to 4: the instruction completes, is counted and traced. -/
  | completes (r : Record) (h : fetch s = some r) (i : Instr) (body : r.body = .instr i)
      (alive : watchdogExpired s = false) (t : State) (eff : exec i s = .next t)
      (going : t.run = .running) : StepCase s (retire s.pc r t)

/-- An instruction that is not BREAK, run in a RUNNING state, either faults or leaves it RUNNING. -/
theorem exec_running {i : Instr} {s : State} (hs : s.run = .running) (hi : i ≠ .brk) :
    (∃ cause, cause.isMemory = true ∧ exec i s = .next (raise cause s)) ∨
    ∃ t, exec i s = .next t ∧ t.run = .running := by
  obtain ⟨t, ht, he⟩ := exec_effect i s
  rcases he with ⟨_, rfl⟩ | ⟨_, _, rfl⟩ | ⟨_, _, _, rfl⟩ | ⟨c, hc, _, rfl⟩ | ⟨hb, rfl⟩
  · exact .inr ⟨_, ht, hs⟩
  · exact .inr ⟨_, ht, hs⟩
  · exact .inr ⟨_, ht, hs⟩
  · exact .inl ⟨c, hc, ht⟩
  · exact absurd hb hi

/-- A RUNNING engine steps, and its next state is one of those of StepCase. -/
theorem step_running {s : State} (hs : s.run = .running) : ∃ t, step s = .next t ∧ StepCase s t := by
  unfold step engineStep runCycle
  rw [hs]
  cases hf : fetch s with
  | none => exact ⟨_, rfl, .position hf⟩
  | some r =>
    cases hb : r.isBreak with
    | true => exact ⟨halt s, by simp [exec, execBreak, hb], .halts r hf hb⟩
    | false =>
      cases hw : watchdogExpired s with
      | true => exact ⟨_, by simp [runRecord, hb, hw], .watchdog r hf hb hw⟩
      | false =>
        cases hbody : r.body with
        | invalid key => exact ⟨_, by simp [runRecord, hb, hw, hbody], .invalid r hf key hbody hw⟩
        | instr i =>
          have hi : i ≠ .brk := by
            rintro rfl
            rw [(isBreak_iff r).2 hbody] at hb
            cases hb
          rcases exec_running hs hi with ⟨c, hc, he⟩ | ⟨t, he, ht⟩
          · exact ⟨_, by simp [runRecord, hb, hw, hbody, he, retireIfRunning],
              .faults r hf i hbody hw c hc he⟩
          · exact ⟨_, by simp [runRecord, hb, hw, hbody, he, retireIfRunning, ht],
              .completes r hf i hbody hw t he ht⟩

/-- A step that gives a next state was made while RUNNING, and is one of StepCase. -/
theorem step_cases {s t : State} (h : step s = .next t) : s.run = .running ∧ StepCase s t := by
  cases hr : s.run with
  | running =>
    obtain ⟨u, hu, hc⟩ := step_running hr
    rw [hu] at h
    cases h
    exact ⟨rfl, hc⟩
  | halted => simp [step, engineStep, hr] at h
  | faulted r => simp [step, engineStep, hr] at h
  | refused e => simp [step, engineStep, hr] at h

/-- A step writes neither the program store nor the configuration. -/
theorem step_keeps {s t : State} (h : step s = .next t) : t.prog = s.prog ∧ t.config = s.config := by
  cases (step_cases h).2 with
  | position _ => simp
  | halts _ _ _ => simp
  | watchdog _ _ _ _ => simp
  | invalid _ _ _ _ _ => simp
  | faults _ _ _ _ _ _ _ _ => simp
  | completes _ _ _ _ _ u eff _ => simpa using ⟨(exec_keeps eff).1, (exec_keeps eff).2.1⟩

end Sys2Proof.Machine
end

