-- ==== Sys2Proof/Laws/Values.lean ====
section
/-! SUPPORT. The values the instructions compute, in the terms of the library's bit vectors: Operands.lean
computes them on the integers and narrows at the end, as the rules do. -/

namespace Sys2Proof.Machine

/-- The sum is the addition of bit vectors (R178). -/
theorem sumOf_eq_add (a b : Word) : sumOf a b = a + b := by
  apply BitVec.eq_of_toInt_eq
  simp [sumOf, BitVec.toInt_add]

/-- The difference is the subtraction of bit vectors (R178). -/
theorem differenceOf_eq_sub (a b : Word) : differenceOf a b = a - b := by
  apply BitVec.eq_of_toInt_eq
  simp [differenceOf, BitVec.toInt_sub]

/-- LSL's value is the shift of bit vectors, for every amount (R191, R194). -/
theorem shiftLeft_eq (v : Word) (shamt : BitVec 6) : shiftLeft v shamt = v <<< shamt.toNat := by
  apply BitVec.eq_of_toNat_eq
  simp only [shiftLeft, wrap32, uint, BitVec.toNat_ofInt, BitVec.toNat_shiftLeft, Nat.shiftLeft_eq]
  norm_cast

/-- LSR's value is the logical shift of bit vectors, for every amount (R192, R194). -/
theorem shiftRightLogical_eq (v : Word) (shamt : BitVec 6) :
    shiftRightLogical v shamt = v >>> shamt.toNat := by
  apply BitVec.eq_of_toNat_eq
  simp only [shiftRightLogical, uint, BitVec.toNat_ofNat, BitVec.toNat_ushiftRight,
    Nat.shiftRight_eq_div_pow]
  have h1 : v.toNat / 2 ^ shamt.toNat ≤ v.toNat := Nat.div_le_self _ _
  have h2 := v.isLt
  rw [Nat.mod_eq_of_lt]
  omega

/-- ASR's value is the arithmetic shift of bit vectors, for every amount (R193, R194). -/
theorem shiftRightArith_eq (v : Word) (shamt : BitVec 6) :
    shiftRightArith v shamt = v.sshiftRight shamt.toNat := by
  have e : v.toInt / 2 ^ shamt.toNat = (v.sshiftRight shamt.toNat).toInt := by
    rw [BitVec.toInt_sshiftRight, Int.shiftRight_eq_div_pow]
    norm_cast
  rw [shiftRightArith, Int.fdiv_eq_ediv_of_nonneg _ (by positivity), sint, e]
  exact BitVec.ofInt_toInt

/-- The test of CBZ and CBNZ is that the register's unsigned reading is 0 (R212). -/
theorem condZero_iff (cond : RegIdx) (s : State) :
    condZero cond s = true ↔ uint (readReg cond s) = 0 := by
  simp only [condZero, beq_iff_eq]
  exact ⟨fun h => by simp [h], fun h => BitVec.eq_of_toNat_eq (by simpa using h)⟩

end Sys2Proof.Machine
end

