-- ==== Sys2Proof/Laws/Frames.lean ====
section
/-! SUPPORT. The two ends an instruction that completes has, in the terms of Safety.lean, and what the format
of a record says of its body. -/

namespace Sys2Proof.Machine

/-- What `doneWriting` leaves, in the terms of Safety.lean. -/
theorem completesWriting_of_write (rd : RegIdx) (v : Word) (s : State) :
    completesWriting rd v s (advance 1 (writeReg rd v s)) := by
  refine ⟨⟨by simp, fun r h => ?_⟩, fun _ => rfl, ⟨rfl, rfl, rfl, rfl, rfl⟩, rfl⟩
  rw [readReg_advance, readReg_writeReg_other h]

/-- What `done` and `doneBranching` leave, in the terms of Safety.lean. -/
theorem completesMoving_of_advance (delta : Int) (s : State) :
    completesMoving delta s (advance delta s) :=
  ⟨fun _ => rfl, fun _ => rfl, ⟨rfl, rfl, rfl, rfl, rfl⟩, rfl⟩

/-- An address passes the check of R53 exactly when it is legal. -/
theorem addressCheck_eq_none_iff (ea : Int) : addressCheck ea = none ↔ legalAddress ea :=
  addressCheck_eq_none ea

/-- A record has the format BREAK exactly when it ends the program. -/
theorem format_eq_break_iff (r : Record) : r.format = .BREAK ↔ r.isBreak = true := by
  unfold Record.format Record.mnemonic Record.isBreak
  cases r.body with
  | instr i => cases i <;> simp [Instr.mnemonic, Mnemonic.format]
  | invalid key => simp

/-- A record has the format INVALID exactly when its word decodes to no instruction. -/
theorem format_eq_invalid_iff (r : Record) : r.format = .INVALID ↔ ∃ key, r.body = .invalid key := by
  unfold Record.format Record.mnemonic
  cases r.body with
  | instr i => cases i <;> simp [Instr.mnemonic, Mnemonic.format]
  | invalid key => simp

/-- An instruction that completes moves the position by its delta (R26). -/
theorem exec_pos {i : Instr} {s t : State} (h : exec i s = .next t) (ht : t.run = .running) :
    t.pos = s.pos + deltaOf i s := by
  cases i with
  | ldur dtaddr op2 rn rt =>
    rcases execLdur_cases dtaddr op2 rn rt s with ⟨c, _, _, e⟩ | ⟨v, _, e⟩ <;>
      simp only [exec, e] at h <;> cases h
    · simp at ht
    · simp [deltaOf]
  | stur dtaddr op2 rn rt =>
    rcases execStur_cases dtaddr op2 rn rt s with ⟨c, _, _, e⟩ | ⟨_, e⟩ <;>
      simp only [exec, e] at h <;> cases h
    · simp at ht
    · simp [deltaOf]
  | brk => cases h; simp at ht
  | cbz offset cond => cases h; simp [deltaOf, condZero]
  | cbnz offset cond => cases h; simp [deltaOf, condZero]
  | _ => cases h; simp [deltaOf]

/-- An instruction changes no register outside its write set (R23). -/
theorem exec_readReg {i : Instr} {s t : State} (h : exec i s = .next t) {r : RegIdx}
    (hr : r ∉ writesOf i) : readReg r t = readReg r s := by
  cases i with
  | ldur dtaddr op2 rn rt =>
    rcases execLdur_cases dtaddr op2 rn rt s with ⟨c, _, _, e⟩ | ⟨v, _, e⟩ <;>
      simp only [exec, e] at h <;> cases h
    · simp
    · simp only [writesOf, List.mem_singleton] at hr
      simp [readReg_writeReg_other hr]
  | stur dtaddr op2 rn rt =>
    rcases execStur_cases dtaddr op2 rn rt s with ⟨c, _, _, e⟩ | ⟨_, e⟩ <;>
      simp only [exec, e] at h <;> cases h <;> simp
  | brk => cases h; simp
  | cbz offset cond => cases h; simp
  | cbnz offset cond => cases h; simp
  | b offset => cases h; simp
  | nop => cases h; simp
  | movz shiftcode field rd => cases h; simp
  | movk shiftcode field rd => cases h; simp
  | _ =>
    cases h
    simp only [writesOf, List.mem_singleton] at hr
    simp [readReg_writeReg_other hr]

end Sys2Proof.Machine
end

