-- ==== Sys2Proof/Laws/Loader.lean ====
section
/-! SUPPORT. LDR in closed form (spec/40_decode_classify.md R127): what it makes of the words before the
first BREAK, of the BREAK, and of the words after it. -/

namespace Sys2Proof.Machine

/-- The records of consecutive words, the first at position `i`. -/
def recordsOf (i : Nat) : List Word → List Record
  | [] => []
  | w :: ws => recordOf (addressOf i) w :: recordsOf (i + 1) ws

/-- The reports of consecutive words, the first at position `i`. -/
def reportsOfWords (i : Nat) : List Word → List Report
  | [] => []
  | w :: ws => reportsOf i (recordOf (addressOf i) w) ++ reportsOfWords (i + 1) ws

/-- Consecutive words placed in data memory, the first at position `i`. -/
def putWords (m : Memory) (i : Nat) : List Word → Memory
  | [] => m
  | w :: ws => putWords (memPut m (addressOf i).toNat w) (i + 1) ws

theorem recordsOf_length (i : Nat) (ws : List Word) : (recordsOf i ws).length = ws.length := by
  induction ws generalizing i with
  | nil => rfl
  | cons w ws ih => simp [recordsOf, ih]

theorem recordsOf_getElem? (i k : Nat) (ws : List Word) :
    (recordsOf i ws)[k]? = ws[k]?.map (recordOf (addressOf ((i + k : Nat) : Int))) := by
  induction ws generalizing i k with
  | nil => rfl
  | cons w ws ih =>
    cases k with
    | zero => simp [recordsOf]
    | succ k =>
      simp only [recordsOf, List.getElem?_cons_succ, ih]
      rw [show i + 1 + k = i + (k + 1) by omega]

theorem recordsOf_append (i : Nat) (ws vs : List Word) :
    recordsOf i (ws ++ vs) = recordsOf i ws ++ recordsOf (i + ws.length) vs := by
  induction ws generalizing i with
  | nil => rfl
  | cons w ws ih =>
    simp only [List.cons_append, recordsOf, ih, List.length_cons]
    rw [show i + 1 + ws.length = i + (ws.length + 1) by omega]

/-- The address of a word of the input as a number. -/
theorem addressOf_toNat (i : Nat) : (addressOf i).toNat = 96 + 4 * i := by
  rw [addressOf_eq]
  omega

/-- After the BREAK every word is data (R128). -/
theorem ldrFrom_of_breakSeen (acc : LoadResult) (i : Nat) (ws : List Word)
    (h : acc.breakSeen = true) :
    ldrFrom acc i ws = { acc with dm := putWords acc.dm i ws } := by
  induction ws generalizing acc i with
  | nil => rfl
  | cons w ws ih =>
    have hw : ldrWord acc i w = { acc with dm := memPut acc.dm (addressOf i).toNat w } := by
      simp [ldrWord, h]
    rw [ldrFrom, hw, ih _ _ (by simpa using h)]
    rfl

/-- Before the BREAK every word is an instruction record (R127, R132). -/
theorem ldrFrom_of_noBreak (acc : LoadResult) (i : Nat) (pre rest : List Word)
    (h : acc.breakSeen = false) (hpre : ∀ w ∈ pre, keyOf w ≠ 2038) :
    ldrFrom acc i (pre ++ rest) =
      ldrFrom { acc with prog := acc.prog ++ recordsOf i pre,
                         reports := acc.reports ++ reportsOfWords i pre }
        (i + pre.length) rest := by
  induction pre generalizing acc i with
  | nil => simp [recordsOf, reportsOfWords]
  | cons w ws ih =>
    have hk : (recordOf (addressOf i) w).isBreak = false := by
      rw [Bool.eq_false_iff, ne_eq, recordOf_isBreak_iff]
      exact hpre w (by simp)
    have hw : ldrWord acc i w =
        { acc with prog := acc.prog ++ [recordOf (addressOf i) w],
                   reports := acc.reports ++ reportsOf i (recordOf (addressOf i) w),
                   breakSeen := false } := by
      simp [ldrWord, h, hk]
    rw [List.cons_append, ldrFrom, hw, ih _ _ rfl (fun x hx => hpre x (by simp [hx]))]
    simp [recordsOf, reportsOfWords, h, List.append_assoc]
    congr 1
    omega

/-- LDR on an input with a BREAK: the program, the data memory and the reports (R127). -/
theorem ldr_of_break (pre post : List Word) (w : Word) (hw : keyOf w = 2038)
    (hpre : ∀ x ∈ pre, keyOf x ≠ 2038) :
    ldr (pre ++ w :: post) =
      { prog := recordsOf 0 (pre ++ [w])
        dm := putWords [] (pre.length + 1) post
        reports := reportsOfWords 0 (pre ++ [w])
        breakSeen := true } := by
  have hb : (recordOf (addressOf ((0 + pre.length : Nat) : Int)) w).isBreak = true :=
    (recordOf_isBreak_iff _ _).2 hw
  have hr : ∀ i, reportsOfWords i (pre ++ [w]) =
      reportsOfWords i pre ++ reportsOf (i + pre.length)
        (recordOf (addressOf ((i + pre.length : Nat) : Int)) w) := by
    intro i
    clear hb hpre
    induction pre generalizing i with
    | nil => simp [reportsOfWords]
    | cons x xs ih =>
      simp only [List.cons_append, reportsOfWords, ih, List.length_cons, List.append_assoc]
      rw [show i + 1 + xs.length = i + (xs.length + 1) by omega]
  rw [ldr, ldrFrom_of_noBreak _ _ _ _ rfl hpre, ldrFrom, ldrFrom_of_breakSeen]
  · rw [recordsOf_append, hr]
    simpa [ldrWord, LoadResult.empty, recordsOf] using hb
  · simpa [ldrWord, LoadResult.empty] using hb

/-- LDR on an input without BREAK finds none (R131). -/
theorem ldr_of_noBreak (ws : List Word) (h : ∀ w ∈ ws, keyOf w ≠ 2038) :
    (ldr ws).breakSeen = false := by
  have := ldrFrom_of_noBreak .empty 0 ws [] rfl h
  rw [List.append_nil] at this
  rw [ldr, this]
  rfl

/-- What the placed words read as: each at its own address, every other address as before. -/
theorem memGet_putWords (m : Memory) (i : Nat) (ws : List Word) (a : Nat) (v : Word)
    (hm : ∀ b, 96 + 4 * i ≤ b → memGet m b = none) :
    memGet (putWords m i ws) a = some v ↔
      memGet m a = some v ∨ ∃ k, ws[k]? = some v ∧ a = 96 + 4 * (i + k) := by
  induction ws generalizing m i with
  | nil => simp [putWords]
  | cons w ws ih =>
    have hm' : ∀ b, 96 + 4 * (i + 1) ≤ b → memGet (memPut m (addressOf i).toNat w) b = none := by
      intro b hb
      rw [memGet_memPut_other _ (by rw [addressOf_toNat]; omega)]
      exact hm b (by omega)
    rw [putWords, ih _ _ hm']
    constructor
    · rintro (h | ⟨k, hk, ha⟩)
      · by_cases hai : a = (addressOf i).toNat
        · rw [hai, memGet_memPut_same] at h
          exact .inr ⟨0, by simpa using h, by rw [hai, addressOf_toNat]; omega⟩
        · rw [memGet_memPut_other _ hai] at h
          exact .inl h
      · exact .inr ⟨k + 1, by simpa using hk, by omega⟩
    · rintro (h | ⟨k, hk, ha⟩)
      · have hai : a ≠ (addressOf i).toNat := by
          rintro rfl
          rw [hm _ (by rw [addressOf_toNat])] at h
          cases h
        exact .inl (by rw [memGet_memPut_other _ hai]; exact h)
      · cases k with
        | zero =>
          have hw : w = v := by simpa using hk
          have hai : a = (addressOf i).toNat := by rw [addressOf_toNat]; omega
          exact .inl (by rw [hai, memGet_memPut_same, hw])
        | succ k => exact .inr ⟨k, by simpa using hk, by omega⟩

/-- Placing words keeps the canonical form. -/
theorem memWf_putWords (m : Memory) (i : Nat) (ws : List Word) (h : memWf m = true) :
    memWf (putWords m i ws) = true := by
  induction ws generalizing m i with
  | nil => exact h
  | cons w ws ih => exact ih _ _ (memWf_memPut _ _ _ (by rw [addressOf_toNat]; omega) h)

/-- An input with its first BREAK at `b`, taken apart there. -/
theorem split_of_firstBreakAt {ws : List Word} {b : Nat} (h : firstBreakAt ws b) :
    ∃ pre w post, ws = pre ++ w :: post ∧ pre.length = b ∧ keyOf w = 2038 ∧
      ∀ x ∈ pre, keyOf x ≠ 2038 := by
  obtain ⟨⟨w, hw, hk⟩, hpre⟩ := h
  obtain ⟨hlt, hget⟩ := List.getElem?_eq_some_iff.1 hw
  refine ⟨ws.take b, w, ws.drop (b + 1), ?_, by simp; omega, hk, ?_⟩
  · rw [← hget, List.getElem_cons_drop, List.take_append_drop]
  · intro x hx
    obtain ⟨i, hi, rfl⟩ := List.mem_iff_getElem.1 hx
    have hib : i < b := by simp at hi; omega
    rw [List.getElem_take]
    exact hpre i _ hib (List.getElem?_eq_getElem _)

/-- Every input either has a first BREAK or holds none. -/
theorem firstBreakAt_or_none (ws : List Word) :
    (∃ b, firstBreakAt ws b) ∨ ∀ w ∈ ws, keyOf w ≠ 2038 := by
  induction ws with
  | nil => exact .inr (by simp)
  | cons w ws ih =>
    by_cases hw : keyOf w = 2038
    · exact .inl ⟨0, ⟨w, rfl, hw⟩, by omega⟩
    · rcases ih with ⟨b, ⟨x, hx, hk⟩, hpre⟩ | h
      · refine .inl ⟨b + 1, ⟨x, by simpa using hx, hk⟩, ?_⟩
        intro i y hi hy
        cases i with
        | zero =>
          have : w = y := by simpa using hy
          exact this ▸ hw
        | succ i => exact hpre i y (by omega) (by simpa using hy)
      · exact .inr (by simpa using ⟨hw, h⟩)

/-- A reset with a BREAK in its input (R281). -/
theorem afterReset_of_break (config : RunConfig) (pre post : List Word) (w : Word)
    (hw : keyOf w = 2038) (hpre : ∀ x ∈ pre, keyOf x ≠ 2038) :
    State.afterReset config (pre ++ w :: post) =
      { State.reset with
        run := .running
        dm := putWords [] (pre.length + 1) post
        prog := recordsOf 0 (pre ++ [w])
        config := config } := by
  rw [State.afterReset, ldr_of_break pre post w hw hpre]
  rfl

/-- A reset without BREAK in its input (R131). -/
theorem afterReset_of_noBreak (config : RunConfig) (ws : List Word)
    (h : ∀ w ∈ ws, keyOf w ≠ 2038) :
    State.afterReset config ws = { State.reset with config := config } := by
  rw [State.afterReset, ldr_of_noBreak ws h]
  rfl

end Sys2Proof.Machine
end

