-- ==== Sys2Proof/Laws/PerInstr.lean ====
section
/-! SUPPORT. The per-instruction family EncodedKey: the encoded word of every instruction, whatever its
operands, has a key that CLS gives the instruction's own row (spec/30_encoding.md R85, R86). -/

/-- The encoded word of `i` is classified as the mnemonic of `i`. -/
def Sys2Proof.Laws.EncodedKey.Statement (i : Sys2Proof.Instr) : Prop :=
  (Sys2Proof.cls (Sys2Proof.keyOf (Sys2Proof.encode i))).1 = some i.mnemonic

namespace Sys2Proof.Laws.EncodedKey

theorem b (offset : Word) : Statement (.b offset) :=
  (cls_eq_some_iff _ _).2 (by simp only [encode, packB_key, keyRange, Instr.mnemonic, BitVec.reduceToNat]; omega)

theorem and (rm : RegIdx) (shamt : BitVec 6) (rn rd : RegIdx) : Statement (.and rm shamt rn rd) := by
  simp only [Statement, encode, packR_key]; rfl

theorem add (rm : RegIdx) (shamt : BitVec 6) (rn rd : RegIdx) : Statement (.add rm shamt rn rd) := by
  simp only [Statement, encode, packR_key]; rfl

theorem addi (imm : Word) (rn rd : RegIdx) : Statement (.addi imm rn rd) :=
  (cls_eq_some_iff _ _).2 (by simp only [encode, packI_key, keyRange, Instr.mnemonic, BitVec.reduceToNat]; omega)

theorem orr (rm : RegIdx) (shamt : BitVec 6) (rn rd : RegIdx) : Statement (.orr rm shamt rn rd) := by
  simp only [Statement, encode, packR_key]; rfl

theorem cbz (offset : Word) (cond : RegIdx) : Statement (.cbz offset cond) :=
  (cls_eq_some_iff _ _).2 (by simp only [encode, packCB_key, keyRange, Instr.mnemonic, BitVec.reduceToNat]; omega)

theorem cbnz (offset : Word) (cond : RegIdx) : Statement (.cbnz offset cond) :=
  (cls_eq_some_iff _ _).2 (by simp only [encode, packCB_key, keyRange, Instr.mnemonic, BitVec.reduceToNat]; omega)

theorem sub (rm : RegIdx) (shamt : BitVec 6) (rn rd : RegIdx) : Statement (.sub rm shamt rn rd) := by
  simp only [Statement, encode, packR_key]; rfl

theorem subi (imm : Word) (rn rd : RegIdx) : Statement (.subi imm rn rd) :=
  (cls_eq_some_iff _ _).2 (by simp only [encode, packI_key, keyRange, Instr.mnemonic, BitVec.reduceToNat]; omega)

theorem movz (shiftcode : BitVec 2) (field : BitVec 16) (rd : RegIdx) :
    Statement (.movz shiftcode field rd) :=
  (cls_eq_some_iff _ _).2 (by simp only [encode, packIM_key, keyRange, Instr.mnemonic, BitVec.reduceToNat]; omega)

theorem lsr (rm : RegIdx) (shamt : BitVec 6) (rn rd : RegIdx) : Statement (.lsr rm shamt rn rd) := by
  simp only [Statement, encode, packR_key]; rfl

theorem lsl (rm : RegIdx) (shamt : BitVec 6) (rn rd : RegIdx) : Statement (.lsl rm shamt rn rd) := by
  simp only [Statement, encode, packR_key]; rfl

theorem asr (rm : RegIdx) (shamt : BitVec 6) (rn rd : RegIdx) : Statement (.asr rm shamt rn rd) := by
  simp only [Statement, encode, packR_key]; rfl

theorem eor (rm : RegIdx) (shamt : BitVec 6) (rn rd : RegIdx) : Statement (.eor rm shamt rn rd) := by
  simp only [Statement, encode, packR_key]; rfl

theorem movk (shiftcode : BitVec 2) (field : BitVec 16) (rd : RegIdx) :
    Statement (.movk shiftcode field rd) :=
  (cls_eq_some_iff _ _).2 (by simp only [encode, packIM_key, keyRange, Instr.mnemonic, BitVec.reduceToNat]; omega)

theorem stur (dtaddr : BitVec 9) (op2 : BitVec 2) (rn rt : RegIdx) :
    Statement (.stur dtaddr op2 rn rt) := by
  simp only [Statement, encode, packD_key]; rfl

theorem ldur (dtaddr : BitVec 9) (op2 : BitVec 2) (rn rt : RegIdx) :
    Statement (.ldur dtaddr op2 rn rt) := by
  simp only [Statement, encode, packD_key]; rfl

theorem nop : Statement .nop := by simp only [Statement]; decide

theorem brk : Statement .brk := by simp only [Statement]; decide

end Sys2Proof.Laws.EncodedKey
end

