-- ==== Sys2Proof/Laws/Render.lean ====
section
/-! SUPPORT. What the rows of the memory part of a trace block hold (spec/47_rendering_and_trace.md R235). -/

namespace Sys2Proof.Machine

/-- With enough rows, every cell stands in one of them, in order. -/
theorem memoryRowsFrom_flatten (fuel : Nat) (cs : List (Nat × Int)) (h : cs.length ≤ fuel) :
    ((memoryRowsFrom fuel cs).map MemoryRow.cells).flatten = cs := by
  induction fuel generalizing cs with
  | zero => simp_all [memoryRowsFrom]
  | succ fuel ih =>
    cases cs with
    | nil => rfl
    | cons c cs =>
      simp only [List.length_cons] at h
      have h7 : (cs.drop 7).length ≤ fuel := by rw [List.length_drop]; omega
      simp [memoryRowsFrom, ih _ h7]

/-- Each row starts at the address of its first cell and holds at most 8; a row before another holds
exactly 8. -/
theorem memoryRowsFrom_row (fuel : Nat) (cs : List (Nat × Int)) (k : Nat) (row : MemoryRow)
    (h : (memoryRowsFrom fuel cs)[k]? = some row) :
    row.cells.head?.map Prod.fst = some row.start ∧ row.cells.length ≤ 8 ∧
      (k + 1 < (memoryRowsFrom fuel cs).length → row.cells.length = 8) := by
  induction fuel generalizing cs k with
  | zero => simp [memoryRowsFrom] at h
  | succ fuel ih =>
    cases cs with
    | nil => simp [memoryRowsFrom] at h
    | cons c cs =>
      cases k with
      | zero =>
        simp only [memoryRowsFrom, List.getElem?_cons_zero, Option.some.injEq] at h
        subst h
        refine ⟨rfl, by simp, fun hlt => ?_⟩
        have hne : cs.drop 7 ≠ [] := by
          intro e
          rw [memoryRowsFrom, e] at hlt
          cases fuel <;> simp [memoryRowsFrom] at hlt
        have : 7 < cs.length := by simpa [List.drop_eq_nil_iff] using hne
        simp only [List.length_cons, List.length_take]
        omega
      | succ k =>
        simp only [memoryRowsFrom, List.getElem?_cons_succ, List.length_cons] at h ⊢
        obtain ⟨h1, h2, h3⟩ := ih _ _ h
        exact ⟨h1, h2, fun hlt => h3 (by omega)⟩

end Sys2Proof.Machine
end

