-- ==== Sys2Proof/Tests/Slice0.lean ====
section
/-! SUPPORT. The model's own tests. Expected results come from spec/: the encodings of 30_encoding.md, the
vectors V-... and programs P1 to P16 of 95_test_vectors.md, each named where it is used. Then one
theorem for every statement with hypotheses, named after it, that shows values which meet them. -/

namespace Sys2Proof.Tests

open Sys2Proof Sys2Proof.Machine

/-! ### Helpers -/

/-- A machine reset with an input, some registers then set. -/
def machine (regs : List (RegIdx × Word)) (ws : List Word) : State :=
  regs.foldl (fun s p => writeReg p.1 p.2 s) (State.afterReset {} ws)

/-- The machine of the vectors: the word under test, BREAK, data words from address 104 on. -/
def vector (w : Word) (regs : List (RegIdx × Word)) (data : List Word) : State :=
  machine regs (w :: 0xFEC00000 :: data)

/-- The state a step gives, `s` itself where it gives none. -/
def stepped (s : State) : State :=
  match step s with
  | .next t => t
  | _ => s

/-- The step gives a next state in which the engine is RUNNING at position `p`, with register `r` at `v`
and one cycle counted. -/
def gives (s : State) (r : RegIdx) (v : Word) (p : Int) : Bool :=
  match step s with
  | .next t =>
    decide (t.run = .running) && decide (readReg r t = v) && decide (t.pos = p) &&
      decide (t.cycle = s.cycle + 1) && decide (t.trace.length = s.trace.length + 1)
  | _ => false

/-- The step ends in the fault of this cause, address and cycle, and changes nothing else. -/
def faults (s : State) (cause : Cause) (address : Int) (cycle : Nat) : Bool :=
  match step s with
  | .next t =>
    decide (t = { s with run := .faulted { cause := cause, address := address, cycle := cycle } })
  | _ => false

/-! ### WellFormed: each check refuses an ill-formed term and accepts the edge of its range (R80) -/

theorem test_wellFormed_addi_above : WellFormed (.addi 2048 0 0) = false := by decide
theorem test_wellFormed_addi_below : WellFormed (.addi (-2049) 0 0) = false := by decide
theorem test_wellFormed_addi_edges :
    (WellFormed (.addi 2047 0 0) && WellFormed (.addi (-2048) 0 0)) = true := by decide
theorem test_wellFormed_subi_above : WellFormed (.subi 2048 0 0) = false := by decide
theorem test_wellFormed_subi_below : WellFormed (.subi (-2049) 0 0) = false := by decide
theorem test_wellFormed_b_above : WellFormed (.b 33554432) = false := by decide
theorem test_wellFormed_b_below : WellFormed (.b (-33554433)) = false := by decide
theorem test_wellFormed_b_edges :
    (WellFormed (.b 33554431) && WellFormed (.b (-33554432))) = true := by decide
theorem test_wellFormed_cbz_above : WellFormed (.cbz 262144 0) = false := by decide
theorem test_wellFormed_cbz_below : WellFormed (.cbz (-262145) 0) = false := by decide
theorem test_wellFormed_cbnz_above : WellFormed (.cbnz 262144 0) = false := by decide
theorem test_wellFormed_cbnz_below : WellFormed (.cbnz (-262145) 0) = false := by decide
theorem test_wellFormed_cb_edges :
    (WellFormed (.cbz 262143 0) && WellFormed (.cbnz (-262144) 0)) = true := by decide

/-! ### Decoding: one word for every constructor, its fields written out bit by bit (R72 to R78, R85) -/

theorem test_decode_b :
    decode 0b000101_10000000000000000000000000 = some (.b (-33554432)) := by decide
theorem test_decode_and :
    decode 0b10001010000_00010_000000_00011_00100 = some (.and 2 0 3 4) := by decide
theorem test_decode_add :
    decode 0b10001011000_00010_111111_00001_00011 = some (.add 2 63 1 3) := by decide
theorem test_decode_addi :
    decode 0b1001000100_100000000000_00001_00001 = some (.addi (-2048) 1 1) := by decide
theorem test_decode_orr :
    decode 0b10101010000_00001_000000_00100_00101 = some (.orr 1 0 4 5) := by decide
theorem test_decode_cbz :
    decode 0b10110100_1111111111111111111_00000 = some (.cbz (-1) 0) := by decide
theorem test_decode_cbnz :
    decode 0b10110101_0000000000000000101_11111 = some (.cbnz 5 31) := by decide
theorem test_decode_sub :
    decode 0b11001011000_00010_000000_00001_00011 = some (.sub 2 0 1 3) := by decide
theorem test_decode_subi :
    decode 0b1101000100_111111111111_00001_00010 = some (.subi (-1) 1 2) := by decide
theorem test_decode_movz :
    decode 0b110100101_01_1111111111111111_00111 = some (.movz 1 65535 7) := by decide
theorem test_decode_lsr :
    decode 0b11010011010_00000_000100_01001_00001 = some (.lsr 0 4 9 1) := by decide
theorem test_decode_lsl :
    decode 0b11010011011_11111_000001_11111_00001 = some (.lsl 31 1 31 1) := by decide
theorem test_decode_asr :
    decode 0b11010011100_00000_111111_00000_00110 = some (.asr 0 63 0 6) := by decide
theorem test_decode_eor :
    decode 0b11101010000_00010_000000_00001_00011 = some (.eor 2 0 1 3) := by decide
theorem test_decode_movk :
    decode 0b111100101_11_0000000000000001_00001 = some (.movk 3 1 1) := by decide
theorem test_decode_stur :
    decode 0b11111000000_000000010_11_00001_00100 = some (.stur 2 3 1 4) := by decide
theorem test_decode_ldur :
    decode 0b11111000010_111111111_00_00000_00010 = some (.ldur 511 0 0 2) := by decide
theorem test_decode_nop : decode 0b00000000000_111111111111111111111 = some .nop := by decide
theorem test_decode_brk : decode 0b11111110110_111101111111111100111 = some .brk := by decide

/-- The keys beside the ranges, V-DEC-10, 13, 14, 17, 18, 23, 24, 27 to 29, 33, 35, 37, 40 to 42, 45,
48, 49, 51, are INVALID (R87). -/
theorem test_decode_invalid :
    [0x00200000, 0x13FFFFFF, 0x18000000, 0x91400000, 0x90FFFFFF, 0xFEE00000, 0xFEBFFFFF, 0xD2400000,
      0xD3000000, 0xD3200000, 0xD3A00000, 0xF8200000, 0xF8600000, 0xF3000000, 0xF27FFFFF, 0xB3FFFFFF,
      0xB6000000, 0xD1400000, 0xFFFFFFFF, 0x8A200000].all
      (fun w : Word => decode w == none) = true := by decide

/-- The encoder gives the words of V-DEC-1 to 6, V-DEC-56 and V-SH-16. -/
theorem test_encode :
    [encode (.add 2 0 1 3), encode (.ldur 1 0 1 3), encode (.addi (-1) 0 1), encode (.b (-2)),
      encode (.cbnz (-2) 1), encode (.movz 1 65535 7), encode (.stur 2 3 1 4),
      encode (.asr 0 63 0 6)] =
    [0x8B020023, 0xF8401023, 0x913FFC01, 0x17FFFFFE, 0xB5FFFFC1, 0xD2BFFFE7, 0xF8002C24,
      0xD380FC06] := by decide

/-- A line is read from bit 31 down, and a line of the wrong length is malformed (R9, R262). -/
theorem test_wordOfLine :
    wordOfLine ('1' :: List.replicate 31 '0') = some 0x80000000 ∧
    wordOfLine (List.replicate 33 '0') = none ∧
    wordOfLine ('2' :: List.replicate 31 '0') = none := by decide

/-! ### One step of each instruction (the vectors of part 2) -/

/-- V-ALU-2, and V-ALU-5: register 31 is ordinary. -/
theorem test_add : gives (vector 0x8B020023 [(1, 0x7FFFFFFF), (2, 1)] []) 3 0x80000000 1 = true := by
  decide
theorem test_add_reg31 : gives (vector 0x8B0003FF [(31, 9), (0, 4)] []) 31 13 1 = true := by decide
/-- V-ALU-7: `rn - rm`, not `rm - rn`. -/
theorem test_sub : gives (vector 0xCB020023 [(1, 5), (2, 10)] []) 3 0xFFFFFFFB 1 = true := by decide
/-- V-ALU-11. -/
theorem test_and : gives (vector 0x8A020064 [(3, 0xA5), (2, 0xAA)] []) 4 0xA0 1 = true := by decide
/-- V-ALU-13. -/
theorem test_orr : gives (vector 0xAA010085 [(4, 0xA0), (1, 0x0F)] []) 5 0xAF 1 = true := by decide
/-- V-ALU-15. -/
theorem test_eor : gives (vector 0xEA020023 [(1, 0xFFFFFFFF), (2, 0xAA)] []) 3 0xFFFFFF55 1 = true := by
  decide
/-- V-ALU-20. -/
theorem test_addi : gives (vector 0x91200021 [(1, 1)] []) 1 0xFFFFF801 1 = true := by decide
/-- V-ALU-24. -/
theorem test_subi : gives (vector 0xD13FFC22 [(1, 0x7FFFFFFF)] []) 2 0x80000000 1 = true := by decide
/-- V-SH-1: the destination is shifted; V-SH-4: an amount of 32. -/
theorem test_lsl : gives (vector 0xD3601005 [(5, 175), (0, 99)] []) 5 2800 1 = true := by decide
theorem test_lsl_wide : gives (vector 0xD3608001 [(1, 0xFFFFFFFF)] []) 1 0 1 = true := by decide
/-- V-SH-7. -/
theorem test_lsr : gives (vector 0xD3401121 [(1, 0xFFFFFFFF), (9, 1)] []) 1 0x0FFFFFFF 1 = true := by
  decide
/-- V-SH-14: toward minus infinity; V-SH-16: an amount of 63. -/
theorem test_asr : gives (vector 0xD3800406 [(6, 0xFFFFFFFD)] []) 6 0xFFFFFFFE 1 = true := by decide
theorem test_asr_wide : gives (vector 0xD380FC06 [(6, 0x80000000)] []) 6 0xFFFFFFFF 1 = true := by
  decide
/-- V-MEM-2: `dtaddr` counts words; V-MEM-7: a negative address. -/
theorem test_ldur : gives (vector 0xF8401023 [(1, 104)] [7, 0xFFFFFFFD]) 3 0xFFFFFFFD 1 = true := by
  decide
theorem test_ldur_negative :
    faults (vector 0xF8400022 [(1, 0xFFFFFFFC)] [7]) (.addressNegative (-4)) 96 1 = true := by decide
/-- V-MEM-11. -/
theorem test_stur :
    (stepped (vector 0xF8002024 [(1, 104), (4, 4)] [7, 0xFFFFFFFD])).dm =
      [(104, 7), (108, 0xFFFFFFFD), (112, 4)] := by decide
/-- V-BR-6: the branch itself does not fault. -/
theorem test_b : gives (vector 0x16000000 [] []) 0 0 (-33554432) = true := by decide
/-- V-BR-9: the register is tested, not the field; V-BR-10: all 32 bits of it. -/
theorem test_cbz : gives (vector 0xB4000045 [] []) 5 0 2 = true := by decide
theorem test_cbz_not : gives (vector 0xB4000045 [(5, 0x80000000)] []) 5 0x80000000 1 = true := by decide
/-- V-BR-19 and V-BR-20. -/
theorem test_cbnz : gives (vector 0xB50000BF [(31, 0xFFFFFFFF)] []) 31 0xFFFFFFFF 5 = true := by decide
theorem test_cbnz_not : gives (vector 0xB50000A0 [] []) 0 0 1 = true := by decide
/-- V-MV-1, V-MV-3, V-MV-6. -/
theorem test_movz : gives (vector 0xD2BFFFE7 [(7, 123)] []) 7 123 1 = true := by decide
theorem test_movk : gives (vector 0xF2824687 [(7, 123)] []) 7 123 1 = true := by decide
theorem test_nop : gives (vector 0x001FFFFF [(1, 5)] []) 1 5 1 = true := by decide
/-- V-MV-7 and V-MV-8. -/
theorem test_brk :
    stepped (machine [] [0xFEC00000]) = { machine [] [0xFEC00000] with run := .halted } := by decide
theorem test_invalid : faults (vector 0x00200000 [] []) .invalidInstruction 96 1 = true := by decide

/-- V-LDR-2, V-LDR-3 and V-LDR-4. -/
theorem test_ldr_data : (ldr [0xFEC00000, 0xFFFFFFFF, 1]).dm = [(100, 0xFFFFFFFF), (104, 1)] := by decide
theorem test_ldr_secondBreak : (ldr [0xFEC00000, 0xFEC00000]).dm = [(100, 0xFEC00000)] := by decide
theorem test_ldr_report :
    (ldr [0x91000401, 0x00200000, 0xFEC00000]).reports = [{ index := 1, key := 1 }] := by decide

/-- V-ST-13 and V-ST-14: the watchdog comes after BREAK. -/
theorem test_watchdog :
    faults (State.afterReset { maxCycles := some 0 } [0x91001401, 0xFEC00000]) .watchdog 96 1 = true := by
  decide
theorem test_watchdog_break :
    (stepped (State.afterReset { maxCycles := some 0 } [0xFEC00000])).run = .halted := by decide

/-- An instruction placed after reset is the one the next step runs. -/
theorem test_withFetchWord :
    gives (State.reset.withFetchWord 32 0x91001401) 1 5 1 = true := by decide

/-- S2 of part 1, and R94: the texts of an ADD and of a shift. -/
theorem test_text :
    [instructionText (recordOf 96 0x8B020023), instructionText (recordOf 96 0xD3601005)] =
      [some ("ADD", "R3, R1, R2"), some ("LSL", "R5, R0, #4")] := by decide

/-- Nine words with a gap: a row of 8 and a row of 1, values signed (R235). -/
def nineWords : Memory :=
  [(104, 1), (108, 2), (112, 3), (116, 4), (120, 5), (124, 6), (128, 7), (200, 8), (204, 0xFFFFFFFD)]

theorem test_memoryRows :
    (memoryRows nineWords).map (fun r => (r.start, r.cells.length, r.cells.map Prod.snd)) =
      [(104, 8, [1, 2, 3, 4, 5, 6, 7, 8]), (204, 1, [-3])] := by decide
theorem witness_TraceBlockShowsTheRecord :
    (traceBlock { cycle := 1, pc := 96, inst := recordOf 96 0, regs := Vector.replicate 32 0,
                  dm := nineWords }).memoryRows[0]?.map MemoryRow.start = some 104 ∧
    0 + 1 < (memoryRows nineWords).length := by decide

/-! ### Values that meet the hypotheses of the statements -/

/-- ADDI, INVALID, NOP, BREAK and one data word, at positions 0 to 3 and address 112. -/
def input : List Word := [0x91001401, 0x00200000, 0x00000000, 0xFEC00000, 7]

/-- The machine reset with it. -/
def demo : State := State.afterReset {} input

/-- `demo` at another position. -/
def demoAt (p : Int) : State := { demo with pos := p }

/-- `demo` with a bound already reached. -/
def demoBound (p : Int) : State := { demo with pos := p, config := { maxCycles := some 0 } }

theorem firstBreakAt_cons {w : Word} {ws : List Word} {b : Nat} (hw : keyOf w ≠ 2038)
    (h : firstBreakAt ws b) : firstBreakAt (w :: ws) (b + 1) := by
  refine ⟨h.1, fun i v hi hv => ?_⟩
  cases i with
  | zero => rw [← Option.some.inj hv]; exact hw
  | succ i => exact h.2 i v (by omega) hv

theorem firstBreakAt_zero {w : Word} {ws : List Word} (hw : keyOf w = 2038) :
    firstBreakAt (w :: ws) 0 :=
  ⟨⟨w, rfl, hw⟩, fun _ _ hi _ => absurd hi (Nat.not_lt_zero _)⟩

theorem witness_firstBreakAt : firstBreakAt input 3 :=
  firstBreakAt_cons (by decide) (firstBreakAt_cons (by decide) (firstBreakAt_cons (by decide)
    (firstBreakAt_zero (by decide))))

theorem witness_DecodeInvertsEncode :
    WellFormed (.b 33554431) = true ∧ WellFormed (.addi (-2048) 31 31) = true := by decide
theorem witness_EncodeInvertsDecode :
    decode 0xFEDEFFE7 = some .brk ∧ decode 0x001FFFFF = some .nop ∧
    decode 0x91200021 = some (.addi (-2048) 1 1) := by decide
theorem witness_DecodedInstructionsAreWellFormed : decode 0x16000000 = some (.b (-33554432)) := by decide
theorem witness_SignExtensionOrsTheMaskAbove :
    (0 < 1 ∧ 1 ≤ 32 ∧ (1 : BitVec 1).getLsbD 0 = true) ∧ (0 < 32 ∧ 32 ≤ 32) := by decide
theorem witness_FieldsAreSlicedByFormat :
    [(recordOf 96 0x8B1FFFFF).format, (recordOf 96 0xF8400000).format, (recordOf 96 0x911FFC21).format,
      (recordOf 96 0x91200021).format, (recordOf 96 0x16000000).format, (recordOf 96 0xB4FFFFFF).format,
      (recordOf 96 0xD2FFFFFF).format] = [.R, .D, .I, .I, .B, .CB, .IM] := by decide
theorem witness_FieldlessRecordsAreZero :
    [(recordOf 96 0x001FFFFF).format, (recordOf 96 0xFEDFFFFF).format,
      (recordOf 96 0x00200000).format] = [.NOP, .BREAK, .INVALID] := by decide

theorem witness_LoadedProgramEndsAtTheFirstBreak :
    firstBreakAt input 3 ∧ 3 ≤ 3 ∧ input[3]? = some 0xFEC00000 ∧ input[1]? = some 0x00200000 :=
  ⟨witness_firstBreakAt, by decide, rfl, rfl⟩
theorem witness_DataMemoryAtResetIsTheTrailingWords :
    firstBreakAt input 3 ∧ firstBreakAt [0xFEC00000] 0 ∧ [(0xFEC00000 : Word)].length = 0 + 1 :=
  ⟨witness_firstBreakAt, firstBreakAt_zero (by decide), rfl⟩
/-- Two reports, in the order of the words. -/
theorem test_ldr_reports_order :
    (ldr [0x00200000, 0x91000401, 0xFFFFFFFF, 0x00200000, 0xFEC00000, 0x00200000]).reports =
      [{ index := 0, key := 1 }, { index := 2, key := 2047 }, { index := 3, key := 1 }] := by decide
theorem witness_ReportsNameTheInvalidWords :
    firstBreakAt input 3 ∧ ({ index := 1, key := 1 } : Report) ∈ (ldr input).reports :=
  ⟨witness_firstBreakAt, by decide⟩
theorem witness_MissingBreakRefusesTheLoad :
    (∀ w ∈ ([] : List Word), keyOf w ≠ 2038) ∧ ∀ w ∈ [(0x91000401 : Word)], keyOf w ≠ 2038 :=
  ⟨by simp, by simp only [List.mem_singleton, forall_eq]; decide⟩
/-- One step of the run has written R1 and not R2. -/
theorem witness_UnwrittenRegistersReadZero :
    firstBreakAt input 3 ∧ RunsTo (State.afterReset {} input) 1 (stepped demo) ∧
    (stepped demo).trace.map TraceRecord.inst = [recordOf 96 0x91001401] ∧
    (recordOf 96 0x91001401).body = .instr (.addi 5 0 1) ∧ 2 ∉ writesOf (.addi 5 0 1) :=
  ⟨witness_firstBreakAt, ⟨stepped demo, rfl, rfl⟩, by decide, by decide, by decide⟩
theorem witness_ResetStartsAtTheFirstWord : firstBreakAt input 3 := witness_firstBreakAt

/-- An instruction that is not BREAK, and BREAK after the bound is reached. -/
theorem witness_StepRunsTheFetchedInstruction :
    (demo.run = .running ∧ fetch demo = some (recordOf 96 0x91001401) ∧
      (recordOf 96 0x91001401).body = .instr (.addi 5 0 1) ∧ watchdogExpired demo = false) ∧
    ((demoBound 3).run = .running ∧ fetch (demoBound 3) = some (recordOf 108 0xFEC00000) ∧
      (recordOf 108 0xFEC00000).body = .instr .brk) := by decide
theorem witness_FetchGivesTheDecodedWord :
    firstBreakAt input 3 ∧ 3 ≤ 3 ∧ input[3]? = some 0xFEC00000 ∧ (demoAt 3).prog = (ldr input).prog ∧
    (demoAt 3).pos = (3 : Nat) :=
  ⟨witness_firstBreakAt, by decide, rfl, by decide, rfl⟩
theorem witness_BreakHaltsAndChangesNothingElse :
    ((demoBound 3).run = .running ∧ fetch (demoBound 3) = some (recordOf 108 0xFEC00000) ∧
      (recordOf 108 0xFEC00000).format = .BREAK) ∧ firstBreakAt [0xFEC00000, 0xFEC00000] 0 :=
  ⟨by decide, firstBreakAt_zero (by decide)⟩
theorem witness_InvalidRecordFaultsWhenFetched :
    (demoAt 1).run = .running ∧ fetch (demoAt 1) = some (recordOf 100 0x00200000) ∧
    (recordOf 100 0x00200000).format = .INVALID ∧ watchdogExpired (demoAt 1) = false := by decide
/-- The first position on either side of 0..b. -/
theorem witness_PositionOutsideTheProgramFaults :
    (demoAt (-1)).run = .running ∧ (demoAt (-1)).pos < 0 ∧
    (demoAt 4).run = .running ∧ (demoAt 4).breakIndex < (demoAt 4).pos := by decide
theorem witness_WatchdogStopsAllButBreak :
    (demoBound 1).run = .running ∧ fetch (demoBound 1) = some (recordOf 100 0x00200000) ∧
    (recordOf 100 0x00200000).format ≠ .BREAK ∧ (demoBound 1).config.maxCycles = some 0 ∧
    0 ≤ (demoBound 1).cycle := by decide
theorem witness_StoppedEngineTakesNoStep :
    State.reset.run ≠ .running ∧ (stepped (demoAt 3)).run = .halted ∧
    (stepped (demoAt (-1))).run ≠ .running := by decide
theorem witness_RunningEngineAlwaysHasANextState : demo.run = .running := by decide

/-- A step that completes, one that halts and one that faults. -/
theorem witness_stepOutcomes :
    (step demo = .next (stepped demo) ∧ (stepped demo).run = .running) ∧
    (step (demoAt 3) = .next (stepped (demoAt 3)) ∧ (stepped (demoAt 3)).run = .halted) ∧
    (step (demoAt 4) = .next (stepped (demoAt 4)) ∧ (stepped (demoAt 4)).run =
      .faulted { cause := .positionRange, address := 112, cycle := 1 }) :=
  ⟨⟨rfl, by decide⟩, ⟨rfl, by decide⟩, ⟨rfl, by decide⟩⟩
theorem witness_CycleCountsCompletedInstructions :
    firstBreakAt input 3 ∧
    (step (State.afterReset {} input) = .next (stepped demo) ∧ (stepped demo).run = .running) ∧
    ((stepped (demoAt 3)).run ≠ .running) ∧
    (exec .nop demo = .next (advance 1 demo) ∧ demo.run = .running) :=
  ⟨witness_firstBreakAt, ⟨rfl, by decide⟩, by decide, rfl, by decide⟩
theorem witness_TraceTakesOneRecordPerInstruction :
    (step demo = .next (stepped demo) ∧ (stepped demo).run = .running) ∧
    (step (demoAt 3) = .next (stepped (demoAt 3)) ∧ (stepped (demoAt 3)).run ≠ .running) :=
  ⟨⟨rfl, by decide⟩, rfl, by decide⟩
theorem witness_FaultChangesOnlyTheRunState :
    step (demoAt 4) = .next (stepped (demoAt 4)) ∧ (stepped (demoAt 4)).run =
      .faulted { cause := .positionRange, address := 112, cycle := 1 } :=
  witness_stepOutcomes.2.2
theorem witness_ProgramStoreIsNeverWritten : step demo = .next (stepped demo) := rfl
theorem witness_OnlyLoadsAndStoresRaiseFaults :
    (demo.run = .running ∧
      exec (.ldur 0 0 0 1) demo = .next (raise (.undefinedLoad 0) demo)) ∧
    (step (demoAt 4) = .next (stepped (demoAt 4)) ∧ (stepped (demoAt 4)).run =
      .faulted { cause := .positionRange, address := 112, cycle := 1 }) :=
  ⟨⟨by decide, rfl⟩, witness_stepOutcomes.2.2⟩
theorem witness_HaltIsReachedOnlyAtTheBreak :
    StateInv (demoAt 3) = true ∧ step (demoAt 3) = .next (stepped (demoAt 3)) ∧
    (stepped (demoAt 3)).run = .halted := ⟨by decide, rfl, by decide⟩
theorem witness_PositionAdvancesByTheDelta :
    (demo.run = .running ∧ exec (.b (-2)) demo = .next (advance (-2) demo) ∧
      (advance (-2) demo).run = .running) ∧
    (step demo = .next (stepped demo) ∧ (stepped demo).run = .running ∧
      fetch demo = some (recordOf 96 0x91001401) ∧
      (recordOf 96 0x91001401).body = .instr (.addi 5 0 1)) ∧
    ((demoAt (-1)).run = .running ∧ (demoAt 4).run = .running) :=
  ⟨⟨by decide, rfl, by decide⟩, ⟨rfl, by decide, by decide, by decide⟩, by decide⟩
theorem witness_EveryStepKeepsTheInvariant :
    StateInv demo = true ∧ step demo = .next (stepped demo) := ⟨by decide, rfl⟩
theorem witness_EqualReadsMeanEqualMemories :
    memWf [] = true ∧ memWf [(0, 7), (4, 0)] = true ∧
    ∀ a, memGet (memPut [(0, 7)] 4 0) a = memGet [(0, 7), (4, 0)] a :=
  ⟨by decide, by decide, fun _ => rfl⟩
theorem witness_BoundedRunEnds :
    (demoBound 0).run = .running ∧ (demoBound 0).config.maxCycles = some 0 := by decide

/-- ADDI, ORR and BREAK: a straight line from position 0; and the empty line at the BREAK itself. -/
def line : State := State.afterReset {} [0x91001401, 0xAA010085, 0xFEC00000]

theorem witness_StraightLineRunHaltsAtTheBreak :
    StateInv line = true ∧ line.run = .running ∧ line.config.maxCycles = none ∧ 0 ≤ line.pos ∧
    line.pos ≤ line.breakIndex ∧
    (∀ p r, line.pos ≤ p → p < line.breakIndex → fetch { line with pos := p } = some r →
      ∃ i, r.body = .instr i ∧ straightLine i = true) := by
  refine ⟨by decide, by decide, by decide, by decide, by decide, fun p r h0 h1 h => ?_⟩
  have e0 : line.pos = 0 := by decide
  have e1 : line.breakIndex = 2 := by decide
  have f0 : fetch { line with pos := 0 } = some (recordOf 96 0x91001401) := by decide
  have f1 : fetch { line with pos := 1 } = some (recordOf 100 0xAA010085) := by decide
  have hp : p = 0 ∨ p = 1 := by omega
  rcases hp with rfl | rfl
  · rw [f0] at h
    cases h
    exact ⟨.addi 5 0 1, by decide, rfl⟩
  · rw [f1] at h
    cases h
    exact ⟨.orr 1 0 4 5, by decide, rfl⟩
theorem witness_CycleAndTraceAreInvisibleToTheProgram :
    demo.run = .running ∧ { demo with cycle := 9 }.run = .running ∧
    sameToProgram demo { demo with cycle := 9 } ∧ demo.config.maxCycles = none ∧
    { demo with cycle := 9 }.config = demo.config ∧ step demo = .next (stepped demo) :=
  ⟨by decide, by decide, ⟨rfl, rfl, rfl, rfl⟩, by decide, rfl, rfl⟩
/-- The same where the step faults, so that the fault records differ in the cycle number. -/
theorem witness_CycleAndTrace_fault :
    sameToProgram (demoAt 1) { demoAt 1 with cycle := 9 } ∧
    (demoAt 1).config.maxCycles = none ∧
    (stepped (demoAt 1)).run =
      .faulted { cause := .invalidInstruction, address := 100, cycle := 1 } ∧
    (stepped { demoAt 1 with cycle := 9 }).run =
      .faulted { cause := .invalidInstruction, address := 100, cycle := 10 } :=
  ⟨⟨rfl, rfl, rfl, rfl⟩, by decide, by decide, by decide⟩
/-- Every register but R1, which ADD R3, R1, R1 reads, is changed. -/
theorem witness_RegisterFootprintIsTheTable :
    demo.run = .running ∧
    exec (.add 1 0 1 3) demo = .next (advance 1 (writeReg 3 0 demo)) ∧
    ∀ r ∈ readsOf (.add 1 0 1 3),
      readReg r { demo with regs := (Vector.replicate 32 9).set 1 0 } = readReg r demo :=
  ⟨by decide, rfl, by decide⟩
theorem witness_IgnoredFieldsDoNotMatter :
    (keyOf 0x00000000 = keyOf 0x001FFFFF ∧ keyOf 0x00000000 = 0) ∧
    (keyOf 0xFEC00000 = keyOf 0xFEDEFFE7 ∧ keyOf 0xFEC00000 = 2038) := by decide
/-- The sums at the two ends of the range, and the differences. -/
theorem witness_SumsAgreeSignedAndUnsigned :
    (-(2 ^ 31 : Int) ≤ sint 0x7FFFFFFE + sint 1 ∧ sint 0x7FFFFFFE + sint 1 = 2 ^ 31 - 1) ∧
    (sint 0x80000001 - sint 1 = -(2 ^ 31 : Int) ∧ sint 0x80000001 - sint 1 < 2 ^ 31) := by decide
theorem witness_WideShiftsClearOrFill :
    32 ≤ (32 : BitVec 6).toNat ∧ 32 ≤ (63 : BitVec 6).toNat ∧ (0 : BitVec 6).toNat = 0 ∧
    0 ≤ sint 0x7FFFFFFF ∧ 0 ≤ sint 0 := by decide

/-- A base register of -4, so that `dtaddr` 1 and 0 give the addresses 0 and -4; one of 2^31 - 4, so that
they give 2^31 and 2^31 - 4; one of 3. -/
def bases : State := machine [(1, 0xFFFFFFFC), (2, 0x7FFFFFFC), (3, 3), (4, 104)] [0xF8400022, 0xFEC00000, 7]

theorem witness_LoadWritesTheWordAtTheAddress :
    (legalAddress (effectiveAddress 4 0 bases) ∧
      memGet bases.dm (effectiveAddress 4 0 bases).toNat = some 7) ∧
    (legalAddress (effectiveAddress 1 1 bases) ∧ legalAddress (effectiveAddress 2 0 bases) ∧
      memGet { bases with config := { loadUndefined := .zero } }.dm 0 = none ∧
      { bases with config := { loadUndefined := .zero } }.config.loadUndefined = .zero) := by
  unfold legalAddress
  decide
theorem witness_StoreSetsTheOneWord :
    legalAddress (effectiveAddress 1 1 bases) ∧ legalAddress (effectiveAddress 2 0 bases) := by
  unfold legalAddress
  decide
/-- The addresses -4, 2^31 and 3, each outside for one reason, and the legal undefined 0 and 2^31 - 4. -/
theorem witness_BadAddressesFaultInOrder :
    (¬ legalAddress (effectiveAddress 1 0 bases) ∧ ¬ legalAddress (effectiveAddress 2 1 bases) ∧
      ¬ legalAddress (effectiveAddress 3 0 bases)) ∧
    (legalAddress (effectiveAddress 1 1 bases) ∧
      memGet bases.dm (effectiveAddress 1 1 bases).toNat = none ∧
      legalAddress (effectiveAddress 2 0 bases) ∧
      memGet bases.dm (effectiveAddress 2 0 bases).toNat = none ∧
      bases.config.loadUndefined = .fault) := by
  unfold legalAddress
  decide
theorem witness_LoadReadsBackTheStoredWord :
    bases.run = .running ∧
    exec (.stur 0 0 4 3) bases = .next (advance 1 (storeWord 104 3 bases)) ∧
    (advance 1 (storeWord 104 3 bases)).run = .running ∧
    effectiveAddress 4 0 (advance 1 (storeWord 104 3 bases)) = effectiveAddress 4 0 bases :=
  ⟨by decide, rfl, by decide, by decide⟩

end Sys2Proof.Tests
end

section
/-! PROOFS. The family of spec/10_state.md: registers that nothing has written (R24), and the position (R26).
First what one step does to a register, to the position and to the fetch check, then what a run keeps, then
the statements. -/

namespace Sys2Proof.Machine

/-! ### Registers along a run (R24) -/

/-- A property that every step keeps is kept by every run (R161). -/
theorem runsTo_keeps {P : State → Prop} (hstep : ∀ s t, step s = .next t → P s → P t) {k : Nat}
    {s t : State} (h : RunsTo s k t) (hs : P s) : P t := by
  induction k generalizing s with
  | zero => exact h ▸ hs
  | succ k ih =>
    obtain ⟨u, hu, hrun⟩ := h
    exact ih hrun (hstep s u hu hs)

/-- No instruction that the trace names has register `r` in its write set. -/
def notWrittenIn (r : RegIdx) (trace : List TraceRecord) : Prop :=
  ∀ record ∈ trace, ∀ i, record.inst.body = .instr i → r ∉ writesOf i

/-- A longer trace is free of writes to `r` exactly when the shorter one and the added record are. -/
theorem notWrittenIn_append_singleton (r : RegIdx) (trace : List TraceRecord) (last : TraceRecord) :
    notWrittenIn r (trace ++ [last]) ↔
      notWrittenIn r trace ∧ ∀ i, last.inst.body = .instr i → r ∉ writesOf i := by
  simp [notWrittenIn, or_imp, forall_and]

/-- A step whose trace shows no write to `r` leaves `r` alone: an instruction that completes has just been
traced, and any other step writes no register. -/
theorem step_readReg_of_notWritten {s t : State} (h : step s = .next t) {r : RegIdx}
    (hr : notWrittenIn r t.trace) : notWrittenIn r s.trace ∧ readReg r t = readReg r s := by
  cases (step_cases h).2 with
  | position _ => exact ⟨hr, rfl⟩
  | halts _ _ _ => exact ⟨hr, rfl⟩
  | watchdog _ _ _ _ => exact ⟨hr, rfl⟩
  | invalid _ _ _ _ _ => exact ⟨hr, rfl⟩
  | faults _ _ _ _ _ _ _ _ => exact ⟨hr, rfl⟩
  | completes inst _ i body _ u eff _ =>
    obtain ⟨-, -, -, htrace⟩ := exec_keeps eff
    rw [retire_trace, notWrittenIn_append_singleton, htrace] at hr
    obtain ⟨hbefore, hlast⟩ := hr
    exact ⟨hbefore, exec_readReg eff (hlast i body)⟩

/-- Every load, refused or not, leaves all registers at 0 (R24, R37). -/
theorem afterReset_readReg (config : RunConfig) (ws : List Word) (r : RegIdx) :
    readReg r (State.afterReset config ws) = 0 := by
  have hregs : (State.afterReset config ws).regs = Vector.replicate 32 0 := by
    unfold State.afterReset
    dsimp only
    split <;> rfl
  simp [readReg, hregs]

/-- What R24 says of a state within a run: register `r` reads 0 unless the trace shows a write to it. -/
def zeroUnlessWritten (r : RegIdx) (s : State) : Prop := notWrittenIn r s.trace → readReg r s = 0

/-- Every step keeps R24 for a register. -/
theorem step_keeps_zeroUnlessWritten (r : RegIdx) (s t : State) (h : step s = .next t)
    (hs : zeroUnlessWritten r s) : zeroUnlessWritten r t := by
  intro hr
  obtain ⟨hbefore, hread⟩ := step_readReg_of_notWritten h hr
  exact hread.trans (hs hbefore)

/-! ### The position (R26) -/

/-- The program counter goes four addresses on for each position (R25). -/
theorem pc_of_pos {s t : State} {delta : Int} (h : t.pos = s.pos + delta) :
    t.pc = s.pc + 4 * delta := by
  rw [pc_eq, pc_eq, h]
  omega

/-- A step that completes an instruction moves the position by that instruction's delta. -/
theorem step_pos {s t : State} {r : Record} {i : Instr} (h : step s = .next t)
    (ht : t.run = .running) (hf : fetch s = some r) (hbody : r.body = .instr i) :
    t.pos = s.pos + deltaOf i s := by
  cases (step_cases h).2 with
  | position _ => simp at ht
  | halts _ _ _ => simp at ht
  | watchdog _ _ _ _ => simp at ht
  | invalid _ _ _ _ _ => simp at ht
  | faults _ _ _ _ _ _ _ _ => simp at ht
  | completes r' hf' i' hbody' _ u eff going =>
    obtain rfl : r = r' := Option.some.inj (hf.symm.trans hf')
    obtain rfl : i = i' := Decoded.instr.inj (hbody.symm.trans hbody')
    rw [retire_pos]
    exact exec_pos eff going

/-- The fault of the position is raised by the fetch and by nothing after it (R151, R251): a memory access
raises other causes. -/
theorem StepCase.positionRange_iff {s t : State} (h : StepCase s t) :
    (∃ record, t.run = .faulted record ∧ record.cause = .positionRange) ↔ fetch s = none := by
  cases h with
  | position hf => simp [hf]
  | halts _ hf _ => simp [hf]
  | watchdog _ hf _ _ => simp [hf]
  | invalid _ hf _ _ _ => simp [hf]
  | faults _ hf _ _ _ cause memory _ =>
    have hcause : cause ≠ .positionRange := by
      rintro rfl
      cases memory
    simp [hf, hcause]
  | completes _ hf _ _ _ _ _ going => simp [hf, going]

end Sys2Proof.Machine

namespace Sys2Proof.Proofs

open Sys2Proof.Machine

/-- Settles O16: R24 holds of a register at reset, and every run from there keeps it. -/
theorem unwrittenRegistersReadZero : Obligations.UnwrittenRegistersReadZero := by
  intro config ws b r _
  have hreset := afterReset_readReg config ws r
  exact ⟨hreset, fun k t hrun =>
    runsTo_keeps (step_keeps_zeroUnlessWritten r) hrun fun _ => hreset⟩

/-- Settles O32: the delta from the frame of `exec`, and the check from the outcomes of a step. -/
theorem positionAdvancesByTheDelta : Obligations.PositionAdvancesByTheDelta := by
  refine ⟨fun i s t _ h ht => ⟨exec_pos h ht, pc_of_pos (exec_pos h ht)⟩,
    fun s t r i => step_pos, fun s => ?_, fun s hs => ?_⟩
  · rw [pc_eq]
    omega
  · obtain ⟨t, ht, hcase⟩ := step_running hs
    rw [← fetch_eq_none, ← hcase.positionRange_iff]
    simp [ht]

end Sys2Proof.Proofs
end

section
/-! PROOFS. The family of spec/20_memory.md: data memory at reset (R64, R130). A word after the BREAK is
named by its position in the input; the loader places it by its position among the trailing words. -/

namespace Sys2Proof.Machine

/-- The trailing words of an input are its words at the positions after the BREAK. -/
theorem getElem?_after_break (pre post : List Word) (w : Word) (k : Nat) :
    (pre ++ w :: post)[pre.length + 1 + k]? = post[k]? := by
  rw [List.getElem?_append_right (by omega),
    show pre.length + 1 + k - pre.length = k + 1 by omega, List.getElem?_cons_succ]

/-- Data memory after a load with a BREAK reads as the trailing words at the addresses of their positions in
the input, and as nothing else. -/
theorem memGet_afterReset_of_break (config : RunConfig) (pre post : List Word) (w : Word)
    (hw : keyOf w = 2038) (hpre : ∀ x ∈ pre, keyOf x ≠ 2038) (a : Nat) (v : Word) :
    memGet (State.afterReset config (pre ++ w :: post)).dm a = some v ↔
      ∃ i, pre.length < i ∧ (pre ++ w :: post)[i]? = some v ∧ a = 96 + 4 * i := by
  have hplaced : memGet (State.afterReset config (pre ++ w :: post)).dm a = some v ↔
      ∃ k, post[k]? = some v ∧ a = 96 + 4 * (pre.length + 1 + k) := by
    rw [afterReset_of_break config pre post w hw hpre, memGet_putWords _ _ _ _ _ fun _ _ => rfl]
    simp [memGet]
  rw [hplaced]
  constructor
  · rintro ⟨k, hk, ha⟩
    exact ⟨pre.length + 1 + k, by omega, (getElem?_after_break pre post w k).trans hk, ha⟩
  · rintro ⟨i, hi, hv, ha⟩
    obtain ⟨k, rfl⟩ := Nat.exists_eq_add_of_le hi
    exact ⟨k, (getElem?_after_break pre post w k).symm.trans hv, ha⟩

/-- A BREAK at the end of the input leaves no word to place. -/
theorem afterReset_dm_of_break_last (config : RunConfig) (pre : List Word) (w : Word)
    (hw : keyOf w = 2038) (hpre : ∀ x ∈ pre, keyOf x ≠ 2038) :
    (State.afterReset config (pre ++ [w])).dm = [] := by
  rw [afterReset_of_break config pre [] w hw hpre]
  rfl

end Sys2Proof.Machine

namespace Sys2Proof.Proofs

open Sys2Proof.Machine

/-- Settles O13: the input is taken apart at its first BREAK. -/
theorem dataMemoryAtResetIsTheTrailingWords : Obligations.DataMemoryAtResetIsTheTrailingWords := by
  intro config ws b hb
  obtain ⟨pre, w, post, rfl, rfl, hw, hpre⟩ := split_of_firstBreakAt hb
  refine ⟨memGet_afterReset_of_break config pre post w hw hpre, fun hlast => ?_⟩
  obtain rfl : post = [] := by simpa using hlast
  exact afterReset_dm_of_break_last config pre w hw hpre

end Sys2Proof.Proofs
end

section
/-! PROOFS. The family of spec/30_encoding.md: sign extension (R79). First the bits of an extended field, then
the same bits under the source's mask of ones. -/

namespace Sys2Proof

/-- The bits of an extended field: its own below its width, copies of its top bit above. -/
theorem sext_getLsbD {n : Nat} (v : BitVec n) {i : Nat} (hi : i < 32) :
    (sext v).getLsbD i = if i < n then v.getLsbD i else v.getLsbD (n - 1) := by
  rw [sext, BitVec.getLsbD_signExtend, BitVec.msb_eq_getLsbD_last, decide_eq_true hi, Bool.true_and]

/-- The mask of ones above the low `n` bits. -/
theorem onesAbove_getLsbD (n : Nat) {i : Nat} (hi : i < 32) :
    (BitVec.allOnes 32 <<< n).getLsbD i = decide (n ≤ i) := by
  have hsub : i - n < 32 := by omega
  rw [BitVec.getLsbD_shiftLeft, BitVec.getLsbD_allOnes, decide_eq_true hi, decide_eq_true hsub]
  simp [← decide_not]

/-- A field whose top bit is set extends to itself with ones above. -/
theorem sext_of_top_set {n : Nat} {v : BitVec n} (htop : v.getLsbD (n - 1) = true) :
    sext v = v.setWidth 32 ||| (BitVec.allOnes 32 <<< n) := by
  apply BitVec.eq_of_getLsbD_eq
  intro i hi
  rw [sext_getLsbD v hi, htop, BitVec.getLsbD_or, onesAbove_getLsbD n hi, BitVec.getLsbD_setWidth]
  by_cases hin : i < n
  · have hnot : ¬ n ≤ i := by omega
    simp [hi, hin, hnot]
  · have hle : n ≤ i := by omega
    simp [hin, hle]

/-- A field whose top bit is clear extends to itself with zeros above. -/
theorem sext_of_top_clear {n : Nat} {v : BitVec n} (htop : v.getLsbD (n - 1) = false) :
    sext v = v.setWidth 32 := by
  apply BitVec.eq_of_getLsbD_eq
  intro i hi
  rw [sext_getLsbD v hi, htop, BitVec.getLsbD_setWidth]
  by_cases hin : i < n
  · simp [hi, hin]
  · have habove : v.getLsbD i = false := BitVec.getLsbD_of_ge v i (by omega)
    simp [hin, habove]

end Sys2Proof

namespace Sys2Proof.Proofs

/-- Settles O7, by the field's top bit; the source's two checks are evaluated. -/
theorem signExtensionOrsTheMaskAbove : Obligations.SignExtensionOrsTheMaskAbove := by
  refine ⟨fun n v _ _ => ?_, by decide, by decide⟩
  split
  next hset => exact sext_of_top_set hset
  next hclear => exact sext_of_top_clear (Bool.eq_false_of_not_eq_true hclear)

end Sys2Proof.Proofs
end

section
/-! PROOFS. The family of spec/40_decode_classify.md: the slicing of a word (R115 to R120). First the
bit field a native opcode is and the fields a format slices, each once for all formats, then the two remarks
on single formats (R117, R118), then the statement. -/

namespace Sys2Proof

/-! ### Bit fields -/

/-- The top `n` bits of a word are a bit field of it. -/
theorem div_eq_bitsAt {lo n : Nat} (hn : lo + n = 32) (w : Word) :
    w.toNat / 2 ^ lo = (bitsAt lo n w).toNat := by
  have hlt : w.toNat / 2 ^ lo < 2 ^ n :=
    Nat.div_lt_of_lt_mul (by rw [← Nat.pow_add, hn]; exact w.isLt)
  rw [bitsAt_toNat, Nat.mod_eq_of_lt hlt]

/-- The low bit of the key is bit 21 of the word, and so the top bit of the 12-bit immediate (R117). -/
theorem keyOf_low_bit (w : Word) : (keyOf w).getLsbD 0 = (bitsAt 10 12 w).msb := by
  simp [keyOf, bitsAt, BitVec.msb_eq_getLsbD_last]

/-- An extended field has its sign from its own top bit (R79). -/
theorem sint_sext_neg_iff {n : Nat} (hn : n ≤ 32) (v : BitVec n) :
    sint (sext v) < 0 ↔ v.msb = true := by
  rw [sint_eq, sext, BitVec.toInt_signExtend_of_le hn, BitVec.msb_eq_toInt, decide_eq_true_iff]

/-! ### The record of a word -/

/-- The operand fields a format slices from a word: a column of the layouts R115 to R121. -/
def Format.slice (w : Word) : Format → Fields
  | .R => { rm := bitsAt 16 5 w, shamt := bitsAt 10 6 w, rn := bitsAt 5 5 w, rd := bitsAt 0 5 w }
  | .D => { dtaddr := bitsAt 12 9 w, op2 := bitsAt 10 2 w, rn := bitsAt 5 5 w, rt := bitsAt 0 5 w }
  | .I => { imm := sext (bitsAt 10 12 w), rn := bitsAt 5 5 w, rd := bitsAt 0 5 w }
  | .B => { offset := sext (bitsAt 0 26 w) }
  | .CB => { offset := sext (bitsAt 5 19 w), cond := bitsAt 0 5 w }
  | .IM => { shiftcode := bitsAt 21 2 w, field := bitsAt 5 16 w, rd := bitsAt 0 5 w }
  | .NOP | .BREAK | .INVALID => {}

/-- The slicing of a row depends on the format of the row alone. -/
theorem sliceAs_fields (m : Mnemonic) (w : Word) : (sliceAs m w).fields = m.format.slice w := by
  cases m <;> rfl

/-- A record's mnemonic is the row CLS finds for the key (R110). -/
theorem recordOf_mnemonic (a : Int) (w : Word) : (recordOf a w).mnemonic = (cls (keyOf w)).1 := by
  cases h : (cls (keyOf w)).1 with
  | none => simp [Record.mnemonic, recordOf, (dec_invalid_iff w (keyOf w)).2 ⟨h, rfl⟩]
  | some m => simp [Record.mnemonic, recordOf, dec_of_cls h]

/-- A record's native opcode is the top bit field at the width of its format (R82). -/
theorem recordOf_opcode {a : Int} {w : Word} {f : Format} {lo : Nat}
    (h : (recordOf a w).format = f) (hwidth : lo + f.opcodeWidth = 32) :
    (recordOf a w).opcode = (bitsAt lo f.opcodeWidth w).toNat := by
  have hlo : 32 - f.opcodeWidth = lo := by omega
  rw [Record.opcode, h, hlo, ← div_eq_bitsAt hwidth]
  rfl

/-- A record's operand fields are those its format slices from the word. -/
theorem recordOf_fields {a : Int} {w : Word} {f : Format} (h : (recordOf a w).format = f) :
    (recordOf a w).fields = f.slice w := by
  subst h
  rw [Record.format, recordOf_mnemonic]
  cases h : (cls (keyOf w)).1 with
  | none => simp [Record.fields, recordOf, (dec_invalid_iff w (keyOf w)).2 ⟨h, rfl⟩, Format.slice]
  | some m => simp [Record.fields, recordOf, dec_of_cls h, sliceAs_fields]

/-- A record of the format B is a B: the format has one row. -/
theorem mnemonic_of_format_b {r : Record} (h : r.format = .B) : r.mnemonic = some .B := by
  unfold Record.format at h
  cases hm : r.mnemonic with
  | none => simp [hm] at h
  | some m => cases m <;> simp [hm, Mnemonic.format] at h ⊢

/-- The native opcode 5 is the top six bits of every key in the range of B (R118). -/
theorem recordOf_opcode_of_format_b {a : Int} {w : Word} (h : (recordOf a w).format = .B) :
    (recordOf a w).opcode = 5 := by
  have hrange : 160 ≤ (keyOf w).toNat ∧ (keyOf w).toNat ≤ 191 :=
    keyRange_of_cls (m := .B) (by rw [← recordOf_mnemonic a, mnemonic_of_format_b h])
  rw [keyOf, ← div_eq_bitsAt (by rfl)] at hrange
  rw [recordOf_opcode (lo := 26) h rfl, ← div_eq_bitsAt (by rfl)]
  omega

/-! ### The record of a word whose key is known -/

/-- A key in the range of a row gives the record the mnemonic and the format of the row (R110). -/
theorem recordOf_row {w : Word} {k : Key} {m : Mnemonic} (a : Int) (hkey : keyOf w = k)
    (hrow : (cls k).1 = some m) :
    (recordOf a w).mnemonic = some m ∧ (recordOf a w).format = m.format := by
  subst hkey
  have hmnemonic : (recordOf a w).mnemonic = some m := (recordOf_mnemonic a w).trans hrow
  exact ⟨hmnemonic, by simp [Record.format, hmnemonic]⟩

/-- Key, mnemonic and fields of a record, from the key of its word. -/
theorem recordOf_of_key {a : Int} {w : Word} {k : Key} {m : Mnemonic} {fields : Fields}
    (hkey : keyOf w = k) (hrow : (cls k).1 = some m) (hfields : m.format.slice w = fields) :
    (recordOf a w).key = k ∧ (recordOf a w).mnemonic = some m ∧ (recordOf a w).fields = fields := by
  obtain ⟨hmnemonic, hformat⟩ := recordOf_row a hkey hrow
  exact ⟨hkey, hmnemonic, (recordOf_fields hformat).trans hfields⟩

/-- The same with the native opcode. -/
theorem recordOf_of_key_opcode {a : Int} {w : Word} {k : Key} {m : Mnemonic} {opcode : Nat}
    {fields : Fields} (lo : Nat) (hkey : keyOf w = k) (hrow : (cls k).1 = some m)
    (hwidth : lo + m.format.opcodeWidth = 32)
    (hopcode : (bitsAt lo m.format.opcodeWidth w).toNat = opcode)
    (hfields : m.format.slice w = fields) :
    (recordOf a w).key = k ∧ (recordOf a w).mnemonic = some m ∧ (recordOf a w).opcode = opcode ∧
      (recordOf a w).fields = fields := by
  obtain ⟨hmnemonic, hformat⟩ := recordOf_row a hkey hrow
  exact ⟨hkey, hmnemonic, (recordOf_opcode hformat hwidth).trans hopcode,
    (recordOf_fields hformat).trans hfields⟩

end Sys2Proof

namespace Sys2Proof.Proofs

/-- Settles O8: the opcode and the fields of each format come from two lemmas over the format; the
rules' examples are evaluated from the key of their word. -/
theorem fieldsAreSlicedByFormat : Obligations.FieldsAreSlicedByFormat := by
  intro a w
  refine ⟨fun h => ⟨recordOf_opcode h rfl, recordOf_fields h⟩,
    fun h => ⟨recordOf_opcode h rfl, recordOf_fields h⟩,
    fun h => ⟨recordOf_opcode h rfl, recordOf_fields h, ?immSign⟩,
    fun h => ⟨recordOf_opcode h rfl, recordOf_opcode_of_format_b h, recordOf_fields h⟩,
    fun h => ⟨recordOf_opcode h rfl, recordOf_fields h⟩,
    fun h => ⟨recordOf_opcode h rfl, recordOf_fields h⟩,
    recordOf_of_key (by decide) (by decide) (by decide),
    recordOf_of_key (by decide) (by decide) (by decide),
    recordOf_of_key_opcode 22 (by decide) (by decide) (by decide) (by decide) (by decide),
    recordOf_of_key (by decide) (by decide) (by decide),
    recordOf_of_key_opcode 24 (by decide) (by decide) (by decide) (by decide) (by decide),
    recordOf_of_key_opcode 23 (by decide) (by decide) (by decide) (by decide) (by decide)⟩
  case immSign =>
    rw [recordOf_fields h, keyOf_low_bit]
    exact (sint_sext_neg_iff (by decide) (bitsAt 10 12 w)).symm

end Sys2Proof.Proofs
end

section
/-! PROOFS. The family of spec/41_execution_cycle.md: what a step adds to the trace (R156, R152, R158), and
BREAK as the end of the run (R152). First the two ends a step has, then the meaning of BREAK, then the
statements. -/

namespace Sys2Proof.Machine

/-- A step either counts and traces the fetched instruction, which has completed (R156), or ends the run
and changes the run state only (R152, R158). -/
theorem StepCase.retires_or_stops {s t : State} (h : StepCase s t) :
    (∃ r i u, fetch s = some r ∧ r.body = .instr i ∧ exec i s = .next u ∧ u.run = .running ∧
      t = retire s.pc r u) ∨
    (t.run ≠ .running ∧ t = { s with run := t.run }) := by
  cases h with
  | position _ => exact .inr ⟨by simp, rfl⟩
  | halts _ _ _ => exact .inr ⟨by simp, rfl⟩
  | watchdog _ _ _ _ => exact .inr ⟨by simp, rfl⟩
  | invalid _ _ _ _ _ => exact .inr ⟨by simp, rfl⟩
  | faults _ _ _ _ _ _ _ _ => exact .inr ⟨by simp, rfl⟩
  | completes r hf i body _ u eff going => exact .inl ⟨r, i, u, hf, body, eff, going, rfl⟩

/-- An instruction leaves the counter and the trace to be brought up to date by `retire`, which numbers the
new record from the cycle before the step (R156). -/
theorem exec_retire_trace {i : Instr} {s u : State} (h : exec i s = .next u) (pc : Int) (r : Record) :
    (retire pc r u).cycle = s.cycle + 1 ∧
    (retire pc r u).trace = s.trace ++
      [{ cycle := s.cycle + 1, pc := pc, inst := r, regs := u.regs, dm := u.dm }] := by
  obtain ⟨-, -, hcycle, htrace⟩ := exec_keeps h
  rw [retire_cycle, retire_trace, hcycle, htrace]
  exact ⟨rfl, rfl⟩

/-- BREAK is the halt (R152, R223). -/
theorem exec_brk (s : State) : exec .brk s = .next (halt s) := rfl

end Sys2Proof.Machine

namespace Sys2Proof.Proofs

open Sys2Proof.Machine

/-- Settles O27, by the two ends of a step: only one leaves the engine RUNNING, and only that one traces. -/
theorem traceTakesOneRecordPerInstruction : Obligations.TraceTakesOneRecordPerInstruction := by
  intro s t h
  rcases (step_cases h).2.retires_or_stops with ⟨r, i, u, hf, -, eff, going, rfl⟩ | ⟨hstop, hsame⟩
  · obtain ⟨hcycle, htrace⟩ := exec_retire_trace eff s.pc r
    exact ⟨fun _ => ⟨hcycle, r, hf, htrace⟩, fun hstop => absurd going hstop⟩
  · exact ⟨fun hrun => absurd hrun hstop, fun _ => by rw [hsame]⟩

/-- Settles O55: the halt writes the run state alone. -/
theorem breakEndsTheRun : Obligations.BreakEndsTheRun := by
  intro s
  rw [exec_brk, halt]

end Sys2Proof.Proofs
end

section
/-! PROOFS. The agreement of encoder and decoder (spec/30_encoding.md, spec/40_decode_classify.md): first every
layout read back, then every layout built again from the bit fields of a word, then the statements. -/

namespace Sys2Proof

/-! ### From an instruction to its word and back -/

/-- The word of an instruction has a key of the instruction's own row (R85, R86). -/
theorem encode_row (i : Instr) : (cls (keyOf (encode i))).1 = some i.mnemonic := by
  cases i with
  | b offset => exact Laws.EncodedKey.b offset
  | and rm shamt rn rd => exact Laws.EncodedKey.and rm shamt rn rd
  | add rm shamt rn rd => exact Laws.EncodedKey.add rm shamt rn rd
  | addi imm rn rd => exact Laws.EncodedKey.addi imm rn rd
  | orr rm shamt rn rd => exact Laws.EncodedKey.orr rm shamt rn rd
  | cbz offset cond => exact Laws.EncodedKey.cbz offset cond
  | cbnz offset cond => exact Laws.EncodedKey.cbnz offset cond
  | sub rm shamt rn rd => exact Laws.EncodedKey.sub rm shamt rn rd
  | subi imm rn rd => exact Laws.EncodedKey.subi imm rn rd
  | movz shiftcode field rd => exact Laws.EncodedKey.movz shiftcode field rd
  | lsr rm shamt rn rd => exact Laws.EncodedKey.lsr rm shamt rn rd
  | lsl rm shamt rn rd => exact Laws.EncodedKey.lsl rm shamt rn rd
  | asr rm shamt rn rd => exact Laws.EncodedKey.asr rm shamt rn rd
  | eor rm shamt rn rd => exact Laws.EncodedKey.eor rm shamt rn rd
  | movk shiftcode field rd => exact Laws.EncodedKey.movk shiftcode field rd
  | stur dtaddr op2 rn rt => exact Laws.EncodedKey.stur dtaddr op2 rn rt
  | ldur dtaddr op2 rn rt => exact Laws.EncodedKey.ldur dtaddr op2 rn rt
  | nop => exact Laws.EncodedKey.nop
  | brk => exact Laws.EncodedKey.brk

/-- Slicing the word of a well-formed instruction as its own row gives back every field: the unsigned ones
as they were packed, the signed ones by extension of what was kept of them (R79). -/
theorem sliceAs_encode {i : Instr} (h : WellFormed i = true) : sliceAs i.mnemonic (encode i) = i := by
  cases i with
  | b offset =>
    simp only [Instr.mnemonic, sliceAs, encode, packB_offset, sext_of_fits (by decide) (by decide) h]
  | addi imm rn rd | subi imm rn rd =>
    simp only [Instr.mnemonic, sliceAs, encode, packI_imm, packI_rn, packI_rd,
      sext_of_fits (by decide) (by decide) h]
  | cbz offset cond | cbnz offset cond =>
    simp only [Instr.mnemonic, sliceAs, encode, packCB_offset, packCB_cond,
      sext_of_fits (by decide) (by decide) h]
  | movz shiftcode field rd | movk shiftcode field rd =>
    simp only [Instr.mnemonic, sliceAs, encode, packIM_shiftcode, packIM_field, packIM_rd]
  | stur dtaddr op2 rn rt | ldur dtaddr op2 rn rt =>
    simp only [Instr.mnemonic, sliceAs, encode, packD_dtaddr, packD_op2, packD_rn, packD_rt]
  | nop | brk => rfl
  | and rm shamt rn rd | add rm shamt rn rd | orr rm shamt rn rd | sub rm shamt rn rd
  | lsr rm shamt rn rd | lsl rm shamt rn rd | asr rm shamt rn rd | eor rm shamt rn rd =>
    simp only [Instr.mnemonic, sliceAs, encode, packR_rm, packR_shamt, packR_rn, packR_rd]

/-! ### The rows as match and mask (R85) -/

/-- How many low bits of a word a row leaves free: those below its native opcode (R82). -/
def Mnemonic.freeBits (m : Mnemonic) : Nat := 32 - m.format.opcodeWidth

/-- The mask of a row has ones exactly above its free bits. -/
theorem matchMask_snd (m : Mnemonic) : (matchMask m).2 = BitVec.allOnes 32 <<< m.freeBits := by
  cases m <;> decide

/-- A mask of ones above the low `n` bits clears those bits and keeps the others. -/
theorem and_onesAbove_toNat (w : Word) (n : Nat) :
    (w &&& (BitVec.allOnes 32 <<< n)).toNat = w.toNat / 2 ^ n * 2 ^ n := by
  have hshift : w &&& (BitVec.allOnes 32 <<< n) = (w >>> n) <<< n := by
    apply BitVec.eq_of_getLsbD_eq
    intro i hi
    rw [BitVec.getLsbD_and, onesAbove_getLsbD n hi, BitVec.getLsbD_shiftLeft,
      BitVec.getLsbD_ushiftRight]
    by_cases hn : n ≤ i
    · have hadd : n + (i - n) = i := by omega
      have hnot : ¬ i < n := by omega
      simp [hi, hn, hnot, hadd]
    · have hlt : i < n := by omega
      simp [hn, hlt]
  have hle : w.toNat / 2 ^ n * 2 ^ n < 2 ^ 32 := (Nat.div_mul_le_self _ _).trans_lt w.isLt
  rw [hshift, BitVec.toNat_shiftLeft, BitVec.toNat_ushiftRight, Nat.shiftRight_eq_div_pow,
    Nat.shiftLeft_eq, Nat.mod_eq_of_lt hle]

/-- The key as the top bits of the word (R81). -/
theorem keyOf_toNat (w : Word) : (keyOf w).toNat = w.toNat / 2 ^ 21 :=
  (div_eq_bitsAt (by rfl) w).symm

/-- A word matches a row under its mask exactly when its key lies in the range of the row (R86). -/
theorem match_iff_keyRange (w : Word) (m : Mnemonic) :
    w &&& (matchMask m).2 = (matchMask m).1 ↔
      (keyRange m).1 ≤ (keyOf w).toNat ∧ (keyOf w).toNat ≤ (keyRange m).2 := by
  rw [matchMask_snd, ← BitVec.toNat_inj, and_onesAbove_toNat, keyOf_toNat]
  cases m <;>
    simp only [matchMask, keyRange, Mnemonic.freeBits, Mnemonic.format, Format.opcodeWidth,
      BitVec.reduceToNat] <;>
    omega

/-! ### From a word to its instruction and back -/

/-- Extending a field keeps its own bits. -/
theorem sext_toNat_mod {n : Nat} (hn : n ≤ 32) (v : BitVec n) : (sext v).toNat % 2 ^ n = v.toNat := by
  have hset : (sext v).setWidth n = v := by
    apply BitVec.eq_of_getLsbD_eq
    intro i hi
    rw [BitVec.getLsbD_setWidth, sext_getLsbD v (by omega)]
    simp [hi]
  rw [← BitVec.toNat_setWidth, hset]

section Layouts
variable {w : Word}

/-- A word is the R layout of its own bit fields (R72, R90). -/
theorem packR_bitsAt {op : BitVec 11} (hop : (bitsAt 21 11 w).toNat = op.toNat) :
    packR op (bitsAt 16 5 w) (bitsAt 10 6 w) (bitsAt 5 5 w) (bitsAt 0 5 w) = w := by
  apply BitVec.eq_of_toNat_eq
  rw [packR, ← hop]
  simp only [bitsAt_toNat, BitVec.toNat_ofNat]
  omega

/-- A word is the D layout of its own bit fields (R73, R90). -/
theorem packD_bitsAt {op : BitVec 11} (hop : (bitsAt 21 11 w).toNat = op.toNat) :
    packD op (bitsAt 12 9 w) (bitsAt 10 2 w) (bitsAt 5 5 w) (bitsAt 0 5 w) = w := by
  apply BitVec.eq_of_toNat_eq
  rw [packD, ← hop]
  simp only [bitsAt_toNat, BitVec.toNat_ofNat]
  omega

/-- A word is the I layout of its own bit fields, the immediate extended (R74, R90). -/
theorem packI_bitsAt {op : BitVec 10} (hop : (bitsAt 22 10 w).toNat = op.toNat) :
    packI op (sext (bitsAt 10 12 w)) (bitsAt 5 5 w) (bitsAt 0 5 w) = w := by
  apply BitVec.eq_of_toNat_eq
  rw [packI, ← hop, sext_toNat_mod (by decide)]
  simp only [bitsAt_toNat, BitVec.toNat_ofNat]
  omega

/-- A word is the B layout of its own bit fields, the offset extended (R75, R90). -/
theorem packB_bitsAt {op : BitVec 6} (hop : (bitsAt 26 6 w).toNat = op.toNat) :
    packB op (sext (bitsAt 0 26 w)) = w := by
  apply BitVec.eq_of_toNat_eq
  rw [packB, ← hop, sext_toNat_mod (by decide)]
  simp only [bitsAt_toNat, BitVec.toNat_ofNat]
  omega

/-- A word is the CB layout of its own bit fields, the offset extended (R76, R90). -/
theorem packCB_bitsAt {op : BitVec 8} (hop : (bitsAt 24 8 w).toNat = op.toNat) :
    packCB op (sext (bitsAt 5 19 w)) (bitsAt 0 5 w) = w := by
  apply BitVec.eq_of_toNat_eq
  rw [packCB, ← hop, sext_toNat_mod (by decide)]
  simp only [bitsAt_toNat, BitVec.toNat_ofNat]
  omega

/-- A word is the IM layout of its own bit fields (R77, R90). -/
theorem packIM_bitsAt {op : BitVec 9} (hop : (bitsAt 23 9 w).toNat = op.toNat) :
    packIM op (bitsAt 21 2 w) (bitsAt 5 16 w) (bitsAt 0 5 w) = w := by
  apply BitVec.eq_of_toNat_eq
  rw [packIM, ← hop]
  simp only [bitsAt_toNat, BitVec.toNat_ofNat]
  omega

end Layouts

/-- The native opcode of a word of a row is the top of the row's match value (R82, R85). -/
theorem opcode_of_cls {w : Word} {m : Mnemonic} {n : Nat} (h : (cls (keyOf w)).1 = some m)
    (hn : m.freeBits + n = 32) :
    (bitsAt m.freeBits n w).toNat = (matchMask m).1.toNat / 2 ^ m.freeBits := by
  have hmatch := (match_iff_keyRange w m).2 (keyRange_of_cls h)
  rw [← hmatch, matchMask_snd, and_onesAbove_toNat, Nat.mul_div_cancel _ (Nat.two_pow_pos _),
    div_eq_bitsAt hn]

/-- Encoding the slicing of a word of a row gives the word, with the free bits of NOP and BREAK cleared. -/
theorem encode_sliceAs {w : Word} {m : Mnemonic} (h : (cls (keyOf w)).1 = some m) :
    encode (sliceAs m w) = if m = .NOP ∨ m = .BREAK then (matchMask m).1 else w := by
  cases m with
  | B => exact packB_bitsAt (opcode_of_cls h rfl)
  | ADDI | SUBI => exact packI_bitsAt (opcode_of_cls h rfl)
  | CBZ | CBNZ => exact packCB_bitsAt (opcode_of_cls h rfl)
  | MOVZ | MOVK => exact packIM_bitsAt (opcode_of_cls h rfl)
  | STUR | LDUR => exact packD_bitsAt (opcode_of_cls h rfl)
  | NOP | BREAK => rfl
  | AND | ADD | ORR | SUB | LSR | LSL | ASR | EOR => exact packR_bitsAt (opcode_of_cls h rfl)

/-- The instructions without operand fields are those of the rows NOP and BREAK. -/
theorem nop_or_brk_iff (i : Instr) :
    i = .nop ∨ i = .brk ↔ i.mnemonic = .NOP ∨ i.mnemonic = .BREAK := by
  cases i <;> simp [Instr.mnemonic]

/-- Slicing a word as any row gives signed fields in range (R80). -/
theorem wellFormed_sliceAs (m : Mnemonic) (w : Word) : WellFormed (sliceAs m w) = true := by
  cases m with
  | B | ADDI | SUBI | CBZ | CBNZ => exact fits_of_sext (by decide) _
  | _ => rfl

/-! ### Classification of the record -/

/-- A pair of row and format as CLS may answer it: the format is that of the row, INVALID without one. -/
def RowFormat (answer : Option Mnemonic × Format) : Prop :=
  answer.2 = (answer.1.map Mnemonic.format).getD .INVALID

/-- An if-then-else of rows answers with the format of its row when its branches do. -/
theorem RowFormat.ite {p : Prop} [Decidable p] {a b : Option Mnemonic × Format} (ha : RowFormat a)
    (hb : RowFormat b) : RowFormat (if p then a else b) := by
  split
  · exact ha
  · exact hb

/-- CLS gives a row's format with the row, and INVALID without one (R110). -/
theorem rowFormat_cls (key : Key) : RowFormat (cls key) := by
  unfold cls
  dsimp only
  iterate 19 refine RowFormat.ite rfl ?_
  rfl

/-- A record's format is that of its row (R70). -/
theorem Record.format_eq (r : Record) :
    r.format = (r.mnemonic.map Mnemonic.format).getD .INVALID := by
  unfold Record.format
  cases r.mnemonic <;> rfl

/-- A record has no mnemonic exactly when it is INVALID: every row has a format of its own (R70, R112). -/
theorem Record.mnemonic_eq_none_iff (r : Record) : r.mnemonic = none ↔ r.format = .INVALID := by
  rw [Record.format_eq]
  cases r.mnemonic with
  | none => simp
  | some m => cases m <;> simp [Mnemonic.format]

/-- The formats without operand fields slice none and have the key as their opcode (R83, decision D5). -/
theorem recordOf_of_fieldless {a : Int} {w : Word} {f : Format} (h : (recordOf a w).format = f)
    (hslice : f.slice w = {}) (hwidth : f.opcodeWidth = 11) :
    (recordOf a w).fields = {} ∧ (recordOf a w).opcode = (keyOf w).toNat := by
  refine ⟨(recordOf_fields h).trans hslice, ?_⟩
  rw [recordOf_opcode (lo := 21) h (by rw [hwidth]), hwidth, keyOf]

end Sys2Proof

namespace Sys2Proof.Proofs

/-- Settles O2: the key selects the instruction's own row, and its slicing gives back the fields. -/
theorem decodeInvertsEncode : Obligations.DecodeInvertsEncode := fun i h =>
  (decode_eq_some_iff _ i).2 ⟨encode_row i, sliceAs_encode h⟩

/-- Settles O3: a word is the layout of its own fields; NOP and BREAK keep only what their mask does. -/
theorem encodeInvertsDecode : Obligations.EncodeInvertsDecode := by
  intro w i h
  obtain ⟨hrow, hslice⟩ := (decode_eq_some_iff w i).1 h
  have hmatch := (match_iff_keyRange w i.mnemonic).2 (keyRange_of_cls hrow)
  rw [← hslice, encode_sliceAs hrow, hslice]
  by_cases hfree : i = .nop ∨ i = .brk
  · rw [if_pos hfree, if_pos ((nop_or_brk_iff i).1 hfree), ← hmatch]
    rcases hfree with rfl | rfl <;> rfl
  · rw [if_neg hfree, if_neg (mt (nop_or_brk_iff i).2 hfree)]

/-- Settles O4: a decoded instruction is a slicing of its word. -/
theorem decodedInstructionsAreWellFormed : Obligations.DecodedInstructionsAreWellFormed := by
  intro w i h
  obtain ⟨-, hslice⟩ := (decode_eq_some_iff w i).1 h
  exact hslice ▸ wellFormed_sliceAs i.mnemonic w

/-- Settles O5: both columns say that the key lies in the range of the row. -/
theorem classificationIsMatchUnderMask : Obligations.ClassificationIsMatchUnderMask := fun w m =>
  (cls_eq_some_iff _ m).trans (match_iff_keyRange w m).symm

/-- Settles O6: the record's mnemonic is the row of its key, and either format is that of the row. -/
theorem recordFormatIsAFunctionOfTheKey : Obligations.RecordFormatIsAFunctionOfTheKey := by
  intro a w
  rw [Record.format_eq, recordOf_mnemonic, ← rowFormat_cls]

/-- Settles O9, by the three formats without operand fields. -/
theorem fieldlessRecordsAreZero : Obligations.FieldlessRecordsAreZero := by
  intro a w h
  have hzero : (recordOf a w).fields = {} ∧ (recordOf a w).opcode = (keyOf w).toNat := by
    rcases h with h | h | h <;> exact recordOf_of_fieldless h rfl rfl
  obtain ⟨hfields, hopcode⟩ := hzero
  exact ⟨hfields, hopcode, Record.mnemonic_eq_none_iff _⟩

/-- Settles O1: each of the nine closed words is evaluated. -/
theorem writtenOutWordsDecode : Obligations.WrittenOutWordsDecode := by
  refine ⟨?_, ?_, ?_, ?_, ?_, ?_, ?_, ?_, ?_⟩ <;> decide

end Sys2Proof.Proofs
end

section
/-! PROOFS. The words of the encodings as or-formulas (spec/42 to spec/46), and the digits of a disassembly line
(spec/47_rendering_and_trace.md R231, spec/00_scope.md R9). -/

namespace Sys2Proof

/-! ### Fields that tile a word -/

/-- Or-ing a value below `2^n` onto a multiple of `2^n` adds it. -/
theorem or_toNat_of_low (n : Nat) {x y : Word} {a b : Nat} (hx : x.toNat = a) (hy : y.toNat = b)
    (ha : a % 2 ^ n = 0) (hb : b < 2 ^ n) : (x ||| y).toNat = a + b := by
  have hsplit : 2 ^ n * (a / 2 ^ n) = a := Nat.mul_div_cancel' (Nat.dvd_of_mod_eq_zero ha)
  have hor := Nat.two_pow_add_eq_or_of_lt hb (a / 2 ^ n)
  rw [hsplit] at hor
  rw [BitVec.toNat_or, hx, hy, hor]

/-- A value of `len` bits moved to its place as a number. -/
theorem shiftLeft_toNat_of_lt {x : Word} {len lo : Nat} (hx : x.toNat < 2 ^ len) (h : len + lo ≤ 32) :
    (x <<< lo).toNat = x.toNat * 2 ^ lo := by
  have hlt : x.toNat * 2 ^ lo < 2 ^ 32 :=
    calc x.toNat * 2 ^ lo < 2 ^ len * 2 ^ lo := Nat.mul_lt_mul_of_pos_right hx (Nat.two_pow_pos lo)
      _ = 2 ^ (len + lo) := (Nat.pow_add 2 len lo).symm
      _ ≤ 2 ^ 32 := Nat.pow_le_pow_right (by decide) h
  rw [BitVec.toNat_shiftLeft, Nat.shiftLeft_eq, Nat.mod_eq_of_lt hlt]

/-- A field moved to its place as a number. -/
theorem place_toNat {len lo : Nat} (v : BitVec len) (h : len + lo ≤ 32) :
    (v.setWidth 32 <<< lo).toNat = v.toNat * 2 ^ lo := by
  have hv : (v.setWidth 32).toNat = v.toNat := BitVec.toNat_setWidth_of_le (by omega)
  rw [shiftLeft_toNat_of_lt (hv ▸ v.isLt) h, hv]

/-- A register index in the lowest place as a number. -/
theorem lowest_toNat (r : RegIdx) : (r.setWidth 32).toNat = r.toNat :=
  BitVec.toNat_setWidth_of_le (by decide)

/-- The low bits of a signed operand, taken as a remainder and moved to their place (R74, R76). -/
theorem place_mod_toNat (v n : Word) {len lo : Nat} (hn : n.toNat = 2 ^ len) (h : len + lo ≤ 32) :
    ((v % n) <<< lo).toNat = v.toNat % 2 ^ len * 2 ^ lo := by
  have hmod : (v % n).toNat = v.toNat % 2 ^ len := by rw [BitVec.toNat_umod, hn]
  rw [shiftLeft_toNat_of_lt (hmod ▸ Nat.mod_lt _ (Nat.two_pow_pos len)) h, hmod]

/-! ### The layouts as or-formulas -/

/-- The word made from a number is the word that reads as it. -/
theorem eq_ofNat_of_toNat {x : Word} {n : Nat} (h : x.toNat = n) : BitVec.ofNat 32 n = x := by
  rw [← h, BitVec.ofNat_toNat, BitVec.setWidth_eq]

/-- The R layout: opcode, rm, shamt, rn, rd (R72). -/
theorem packR_eq_or (op : BitVec 11) (rm : RegIdx) (shamt : BitVec 6) (rn rd : RegIdx) :
    packR op rm shamt rn rd = op.setWidth 32 <<< 21 |||
      (rm.setWidth 32 <<< 16 ||| shamt.setWidth 32 <<< 10 ||| rn.setWidth 32 <<< 5 |||
        rd.setWidth 32) := by
  have hfields := or_toNat_of_low 5
    (or_toNat_of_low 10
      (or_toNat_of_low 16 (place_toNat (lo := 16) rm (by decide))
        (place_toNat (lo := 10) shamt (by decide)) (by omega) (by omega))
      (place_toNat (lo := 5) rn (by decide)) (by omega) (by omega))
    (lowest_toNat rd) (by omega) (by omega)
  have hword := or_toNat_of_low 21 (place_toNat (lo := 21) op (by decide)) hfields (by omega) (by omega)
  exact eq_ofNat_of_toNat (hword.trans (by omega))

/-- The D layout: opcode, dtaddr, op2, rn, rt (R73). -/
theorem packD_eq_or (op : BitVec 11) (dtaddr : BitVec 9) (op2 : BitVec 2) (rn rt : RegIdx) :
    packD op dtaddr op2 rn rt = op.setWidth 32 <<< 21 |||
      (dtaddr.setWidth 32 <<< 12 ||| op2.setWidth 32 <<< 10 ||| rn.setWidth 32 <<< 5 |||
        rt.setWidth 32) := by
  have hfields := or_toNat_of_low 5
    (or_toNat_of_low 10
      (or_toNat_of_low 12 (place_toNat (lo := 12) dtaddr (by decide))
        (place_toNat (lo := 10) op2 (by decide)) (by omega) (by omega))
      (place_toNat (lo := 5) rn (by decide)) (by omega) (by omega))
    (lowest_toNat rt) (by omega) (by omega)
  have hword := or_toNat_of_low 21 (place_toNat (lo := 21) op (by decide)) hfields (by omega) (by omega)
  exact eq_ofNat_of_toNat (hword.trans (by omega))

/-- The I layout: opcode, the low 12 bits of the immediate, rn, rd (R74). -/
theorem packI_eq_or (op : BitVec 10) (imm : Word) (rn rd : RegIdx) :
    packI op imm rn rd = op.setWidth 32 <<< 22 |||
      ((imm % 4096) <<< 10 ||| rn.setWidth 32 <<< 5 ||| rd.setWidth 32) := by
  have hfields := or_toNat_of_low 5
    (or_toNat_of_low 10 (place_mod_toNat (len := 12) (lo := 10) imm 4096 rfl (by decide))
      (place_toNat (lo := 5) rn (by decide)) (by omega) (by omega))
    (lowest_toNat rd) (by omega) (by omega)
  have hword := or_toNat_of_low 22 (place_toNat (lo := 22) op (by decide)) hfields (by omega) (by omega)
  exact eq_ofNat_of_toNat (hword.trans (by omega))

/-- The B layout: opcode, the low 26 bits of the offset (R75). -/
theorem packB_eq_or (op : BitVec 6) (offset : Word) :
    packB op offset = op.setWidth 32 <<< 26 ||| offset % 67108864 := by
  have hoffset : (offset % 67108864).toNat = offset.toNat % 2 ^ 26 := BitVec.toNat_umod
  exact eq_ofNat_of_toNat
    (or_toNat_of_low 26 (place_toNat (lo := 26) op (by decide)) hoffset (by omega) (by omega))

/-- The CB layout: opcode, the low 19 bits of the offset, cond (R76). -/
theorem packCB_eq_or (op : BitVec 8) (offset : Word) (cond : RegIdx) :
    packCB op offset cond = op.setWidth 32 <<< 24 |||
      ((offset % 524288) <<< 5 ||| cond.setWidth 32) := by
  have hfields := or_toNat_of_low 5
    (place_mod_toNat (len := 19) (lo := 5) offset 524288 rfl (by decide))
    (lowest_toNat cond) (by omega) (by omega)
  have hword := or_toNat_of_low 24 (place_toNat (lo := 24) op (by decide)) hfields (by omega) (by omega)
  exact eq_ofNat_of_toNat (hword.trans (by omega))

/-- The IM layout: opcode, shiftcode, field, rd (R77). -/
theorem packIM_eq_or (op : BitVec 9) (shiftcode : BitVec 2) (field : BitVec 16) (rd : RegIdx) :
    packIM op shiftcode field rd = op.setWidth 32 <<< 23 |||
      (shiftcode.setWidth 32 <<< 21 ||| field.setWidth 32 <<< 5 ||| rd.setWidth 32) := by
  have hfields := or_toNat_of_low 5
    (or_toNat_of_low 21 (place_toNat (lo := 21) shiftcode (by decide))
      (place_toNat (lo := 5) field (by decide)) (by omega) (by omega))
    (lowest_toNat rd) (by omega) (by omega)
  have hword := or_toNat_of_low 23 (place_toNat (lo := 23) op (by decide)) hfields (by omega) (by omega)
  exact eq_ofNat_of_toNat (hword.trans (by omega))

end Sys2Proof

namespace Sys2Proof.Machine

/-! ### The digits of a word (R9, R231) -/

/-- The digits of the low `n` bits of a word, most significant first. -/
def lowDigits (n : Nat) (w : Word) : List Char :=
  (List.range n).map fun c => if w.getLsbD (n - 1 - c) then '1' else '0'

/-- The 32 digits of a word are those of all its bits. -/
theorem wordDigits_eq_lowDigits (w : Word) : wordDigits w = lowDigits 32 w := rfl

@[simp] theorem wordDigits_length (w : Word) : (wordDigits w).length = 32 := by simp [wordDigits]

/-- The digits of one more bit begin with that bit. -/
theorem lowDigits_succ (n : Nat) (w : Word) :
    lowDigits (n + 1) w = (if w.getLsbD n then '1' else '0') :: lowDigits n w := by
  rw [lowDigits, List.range_succ_eq_map, List.map_cons, List.map_map, lowDigits]
  congr 1
  refine List.map_congr_left fun c _ => ?_
  have hindex : n + 1 - 1 - (c + 1) = n - 1 - c := by omega
  simp only [Function.comp_apply, hindex]

/-- Reading digits after a value read before them appends their bits to it. -/
theorem binaryValue_lowDigits (n acc : Nat) (w : Word) :
    binaryValue acc (lowDigits n w) = some (acc * 2 ^ n + w.toNat % 2 ^ n) := by
  induction n generalizing acc with
  | zero => simp [lowDigits, binaryValue, Nat.mod_one]
  | succ n ih =>
    have hmod : w.toNat % 2 ^ (n + 1) = w.toNat % 2 ^ n + 2 ^ n * (w.getLsbD n).toNat := by
      rw [pow_succ, Nat.mod_mul, BitVec.getLsbD, Nat.toNat_testBit]
    rw [lowDigits_succ, hmod, pow_succ]
    cases w.getLsbD n with
    | false =>
      simp only [binaryValue, ih, if_true, if_false, Bool.false_eq_true, Bool.toNat_false]
      congr 1
      ring
    | true =>
      have hdigit : ('1' : Char) ≠ '0' := by decide
      simp only [binaryValue, ih, if_true, hdigit, if_false, Bool.toNat_true]
      congr 1
      ring

/-- The digits of a word read back as the word (R9). -/
theorem wordOfLine_wordDigits (w : Word) : wordOfLine (wordDigits w) = some w := by
  rw [wordOfLine, if_pos (wordDigits_length w), wordDigits_eq_lowDigits, binaryValue_lowDigits,
    Nat.mod_eq_of_lt w.isLt]
  simp

/-! ### Groups of digits -/

/-- Groups no wider together than the list have their widths. -/
theorem cutInto_lengths {α : Type} (ns : List Nat) (xs : List α) (h : ns.sum ≤ xs.length) :
    (cutInto ns xs).map List.length = ns := by
  induction ns generalizing xs with
  | nil => rfl
  | cons n ns ih =>
    rw [List.sum_cons] at h
    have hrest : ns.sum ≤ (xs.drop n).length := by rw [List.length_drop]; omega
    rw [cutInto, List.map_cons, ih _ hrest, List.length_take, Nat.min_eq_left (by omega)]

/-- Groups as wide together as the list join to the list. -/
theorem cutInto_flatten {α : Type} (ns : List Nat) (xs : List α) (h : ns.sum = xs.length) :
    (cutInto ns xs).flatten = xs := by
  induction ns generalizing xs with
  | nil => exact (List.length_eq_zero_iff.1 h.symm).symm
  | cons n ns ih =>
    rw [List.sum_cons] at h
    have hrest : ns.sum = (xs.drop n).length := by rw [List.length_drop]; omega
    rw [cutInto, List.flatten_cons, ih _ hrest, List.take_append_drop]

/-- The groups of every format cover the word (R90, R231). -/
theorem groupWidths_sum (f : Format) : (groupWidths f).sum = 32 := by cases f <;> rfl

end Sys2Proof.Machine

namespace Sys2Proof.Proofs

open Sys2Proof.Machine

/-- Settles O10: each word is its layout's or-formula, whose opcode in place is the rule's match value. -/
theorem encodedWordsAreTheRulesFormulas : Obligations.EncodedWordsAreTheRulesFormulas := by
  refine ⟨fun rm shamt rn rd => ?rFormat, fun imm rn rd => ?iFormat,
    fun dtaddr op2 rn rt => ?dFormat, fun offset => packB_eq_or 5 offset,
    fun offset cond => ?cbFormat, fun shiftcode field rd => ?imFormat, rfl, rfl⟩
  case rFormat =>
    exact ⟨packR_eq_or 1112 rm shamt rn rd, packR_eq_or 1624 rm shamt rn rd,
      packR_eq_or 1104 rm shamt rn rd, packR_eq_or 1360 rm shamt rn rd,
      packR_eq_or 1872 rm shamt rn rd, packR_eq_or 1691 rm shamt rn rd,
      packR_eq_or 1690 rm shamt rn rd, packR_eq_or 1692 rm shamt rn rd⟩
  case iFormat => exact ⟨packI_eq_or 580 imm rn rd, packI_eq_or 836 imm rn rd⟩
  case dFormat => exact ⟨packD_eq_or 1986 dtaddr op2 rn rt, packD_eq_or 1984 dtaddr op2 rn rt⟩
  case cbFormat => exact ⟨packCB_eq_or 180 offset cond, packCB_eq_or 181 offset cond⟩
  case imFormat => exact ⟨packIM_eq_or 421 shiftcode field rd, packIM_eq_or 485 shiftcode field rd⟩

/-- Settles O11: cutting into widths that sum to 32 loses no digit, and the digits are those of the bits. -/
theorem groupedDigitsReproduceTheWord : Obligations.GroupedDigitsReproduceTheWord := by
  intro a w
  have hsum : (groupWidths (recordOf a w).format).sum = (wordDigits (recordOf a w).raw).length := by
    rw [groupWidths_sum, wordDigits_length]
  refine ⟨?widths, cutInto_flatten _ _ hsum, wordOfLine_wordDigits w⟩
  case widths =>
    rw [groupedDigits, cutInto_lengths _ _ hsum.le]
    cases (recordOf a w).format <;> rfl

end Sys2Proof.Proofs
end

section
/-! PROOFS. The load and what the fetch finds of it (spec/40_decode_classify.md R123 to R133, spec/10_state.md
R37). First the program, then the reports, then the reset state, then the fetch, then the statements. -/

namespace Sys2Proof.Machine

/-! ### The program (R127) -/

/-- A list of records after a first one ends in its one BREAK when the first is none and the rest does. -/
theorem endsInOneBreak_cons {r : Record} {rs : List Record} (hr : r.isBreak = false)
    (hrs : endsInOneBreak rs = true) : endsInOneBreak (r :: rs) = true := by
  cases rs with
  | nil => cases hrs
  | cons r' rs => simp [endsInOneBreak, hr, hrs]

/-- The record of a word that is not BREAK does not end the program. -/
theorem recordOf_not_isBreak {w : Word} (a : Int) (hw : keyOf w ≠ 2038) :
    (recordOf a w).isBreak = false :=
  Bool.eq_false_of_not_eq_true (mt (recordOf_isBreak_iff a w).1 hw)

/-- The records of words up to a first BREAK end in one BREAK (R30). -/
theorem endsInOneBreak_recordsOf (i : Nat) {pre : List Word} {w : Word} (hw : keyOf w = 2038)
    (hpre : ∀ x ∈ pre, keyOf x ≠ 2038) : endsInOneBreak (recordsOf i (pre ++ [w])) = true := by
  induction pre generalizing i with
  | nil => exact (recordOf_isBreak_iff _ w).2 hw
  | cons x xs ih =>
    obtain ⟨hx, hxs⟩ := List.forall_mem_cons.1 hpre
    exact endsInOneBreak_cons (recordOf_not_isBreak _ hx) (ih (i + 1) hxs)

/-- The words up to the BREAK are the same in the input and in its first part. -/
theorem getElem?_up_to_break {pre : List Word} (post : List Word) (w : Word) {i : Nat}
    (hi : i ≤ pre.length) : (pre ++ w :: post)[i]? = (pre ++ [w])[i]? := by
  rw [List.append_cons, List.getElem?_append_left (by simp; omega)]

/-- The loaded record of an input word up to the BREAK: its decoding at its sequential address (R126). -/
theorem ldr_prog_getElem? {pre post : List Word} {w v : Word} (hw : keyOf w = 2038)
    (hpre : ∀ x ∈ pre, keyOf x ≠ 2038) {i : Nat} (hi : i ≤ pre.length)
    (hv : (pre ++ w :: post)[i]? = some v) :
    (ldr (pre ++ w :: post)).prog[i]? = some (recordOf (addressOf i) v) := by
  rw [getElem?_up_to_break post w hi] at hv
  rw [ldr_of_break pre post w hw hpre, recordsOf_getElem?, hv, Nat.zero_add]
  rfl

/-! ### The reports (R123) -/

/-- The report of one word at its index in the input, if its key is in no row. -/
def invalidReport (p : Word × Nat) : Option Report :=
  if (cls (keyOf p.1)).1 = none then some { index := p.2, key := keyOf p.1 } else none

/-- A record is reported exactly when CLS finds no row for its key (R87, R123). -/
theorem reportsOf_recordOf (i : Nat) (a : Int) (w : Word) :
    reportsOf i (recordOf a w) = (invalidReport (w, i)).toList := by
  cases h : (cls (keyOf w)).1 with
  | none => simp [invalidReport, reportsOf, recordOf, (dec_invalid_iff w (keyOf w)).2 ⟨h, rfl⟩, h]
  | some m => simp [invalidReport, reportsOf, recordOf, dec_of_cls h, h]

/-- A BREAK word is not reported. -/
theorem invalidReport_break {w : Word} (hw : keyOf w = 2038) (i : Nat) :
    invalidReport (w, i) = none := by
  have hrow : (cls (keyOf w)).1 = some .BREAK := (cls_break_iff _).2 hw
  simp [invalidReport, hrow]

/-- The reports of consecutive words are those of the single words with their indices. -/
theorem reportsOfWords_eq_filterMap (i : Nat) (ws : List Word) :
    reportsOfWords i ws = (ws.zipIdx i).filterMap invalidReport := by
  induction ws generalizing i with
  | nil => rfl
  | cons w ws ih =>
    rw [reportsOfWords, reportsOf_recordOf, ih, List.zipIdx_cons, List.filterMap_cons]
    cases invalidReport (w, i) <;> rfl

/-- The reports of a load are those of the words before the BREAK (R127). -/
theorem ldr_reports_of_break {pre : List Word} (post : List Word) {w : Word} (hw : keyOf w = 2038)
    (hpre : ∀ x ∈ pre, keyOf x ≠ 2038) :
    (ldr (pre ++ w :: post)).reports = pre.zipIdx.filterMap invalidReport := by
  rw [ldr_of_break pre post w hw hpre, reportsOfWords_eq_filterMap, List.zipIdx_append,
    List.filterMap_append]
  simp [invalidReport_break hw]

/-- Which report a word gives. -/
theorem invalidReport_eq_some_iff (w : Word) (i j : Nat) (key : Key) :
    invalidReport (w, i) = some { index := j, key := key } ↔
      i = j ∧ keyOf w = key ∧ (cls key).1 = none := by
  unfold invalidReport
  split
  next hrow =>
    simp only [Option.some.injEq, Report.mk.injEq]
    exact ⟨fun ⟨hi, hk⟩ => ⟨hi, hk, hk ▸ hrow⟩, fun ⟨hi, hk, _⟩ => ⟨hi, hk⟩⟩
  next hrow =>
    exact ⟨fun h => (by cases h), fun ⟨_, hk, hnone⟩ => absurd (hk ▸ hnone) hrow⟩

/-! ### The reset state (R37, R281) -/

/-- Every load leaves position, cycle counter and trace at their reset values, and sets the parameters. -/
theorem afterReset_counters (config : RunConfig) (ws : List Word) :
    (State.afterReset config ws).pos = 0 ∧ (State.afterReset config ws).cycle = 0 ∧
    (State.afterReset config ws).trace = [] ∧ (State.afterReset config ws).config = config := by
  unfold State.afterReset
  dsimp only
  split <;> exact ⟨rfl, rfl, rfl, rfl⟩

/-- A load that finds a BREAK leaves the engine RUNNING with LDR's program and data memory (R281). -/
theorem afterReset_of_breakSeen (config : RunConfig) {ws : List Word} (h : (ldr ws).breakSeen = true) :
    (State.afterReset config ws).run = .running ∧
    (State.afterReset config ws).prog = (ldr ws).prog ∧
    (State.afterReset config ws).dm = (ldr ws).dm := by
  unfold State.afterReset
  dsimp only
  rw [if_pos h]
  exact ⟨rfl, rfl, rfl⟩

/-! ### The fetch (R151) -/

/-- The fetch gives the record that stands at the position. -/
theorem fetch_of_getElem? {s : State} {p : Nat} {r : Record} (hpos : s.pos = p)
    (hr : s.prog[p]? = some r) : fetch s = some r := by
  obtain ⟨hlt, -⟩ := List.getElem?_eq_some_iff.1 hr
  have hrange : 0 ≤ s.pos ∧ s.pos ≤ s.breakIndex := by
    unfold State.breakIndex
    omega
  rw [fetch, if_pos hrange, hpos, Int.toNat_natCast, hr]

/-- Within the program the fetch gives a record. -/
theorem fetch_of_inside {s : State} (hlo : 0 ≤ s.pos) (hhi : s.pos ≤ s.breakIndex) :
    ∃ r, fetch s = some r := by
  rw [← Option.ne_none_iff_exists', ne_eq, fetch_eq_none]
  omega

/-- The place of a new word lies in the program or, where there is none, at its start. -/
theorem placePosition_le (s : State) : placePosition s ≤ s.prog.length := by
  unfold placePosition State.breakIndex
  split <;> omega

/-- A placed word is the one the next step fetches. -/
theorem fetch_placeWord (w : Word) (s : State) :
    fetch (placeWord w s) = some (recordOf (placeWord w s).pc w) := by
  have hlength : (s.prog.take (placePosition s)).length = placePosition s := by
    rw [List.length_take, Nat.min_eq_left (placePosition_le s)]
  refine fetch_of_getElem? (p := placePosition s) rfl ?_
  change (s.prog.take (placePosition s) ++ _)[placePosition s]? = _
  rw [List.getElem?_append_right hlength.le, hlength, Nat.sub_self]
  rfl

/-- The watchdog has not expired exactly while a bound that is set is not reached (R153). -/
theorem watchdogExpired_eq_false_iff (s : State) :
    watchdogExpired s = false ↔ ∀ n, s.config.maxCycles = some n → s.cycle < n := by
  unfold watchdogExpired
  cases s.config.maxCycles <;> simp

/-- Without a bound the watchdog never expires (R153). -/
theorem watchdogExpired_of_unset {s : State} (h : s.config.maxCycles = none) :
    watchdogExpired s = false := by
  rw [watchdogExpired_eq_false_iff, h]
  exact fun n hn => nomatch hn

/-- A program with a placed word can be run: the watchdog has not expired. -/
theorem watchdogExpired_placeWord (w : Word) (s : State) : watchdogExpired (placeWord w s) = false := by
  rw [watchdogExpired_eq_false_iff]
  intro n hn
  cases h : watchdogExpired s with
  | true => simp [placeWord, h] at hn
  | false => exact (watchdogExpired_eq_false_iff s).1 h n (by simpa [placeWord, h] using hn)

/-- Placing an instruction of 32 bits places its word. -/
theorem withFetchWord_toNat (s : State) (w : Word) : s.withFetchWord 32 w.toNat = placeWord w s := by
  rw [State.withFetchWord, Nat.mod_eq_of_lt w.isLt, BitVec.ofNat_toNat, BitVec.setWidth_eq]

end Sys2Proof.Machine

namespace Sys2Proof.Proofs

open Sys2Proof.Machine

/-- Settles O12: the input is taken apart at its first BREAK. -/
theorem loadedProgramEndsAtTheFirstBreak : Obligations.LoadedProgramEndsAtTheFirstBreak := by
  intro ws b hb
  obtain ⟨pre, w, post, rfl, rfl, hw, hpre⟩ := split_of_firstBreakAt hb
  refine ⟨?seen, ?length, fun i v hi hv => ldr_prog_getElem? hw hpre hi hv, ?ends⟩ <;>
    rw [ldr_of_break pre post w hw hpre]
  case length => simp [recordsOf_length]
  case ends => exact endsInOneBreak_recordsOf 0 hw hpre

/-- Settles O14: the reports are those of the single words before the BREAK. -/
theorem reportsNameTheInvalidWords : Obligations.ReportsNameTheInvalidWords := by
  intro ws b hb
  obtain ⟨pre, w, post, rfl, rfl, hw, hpre⟩ := split_of_firstBreakAt hb
  rw [ldr_reports_of_break post hw hpre]
  refine ⟨by rw [List.take_left]; rfl, fun i key => ?_⟩
  simp only [List.mem_filterMap, Prod.exists, invalidReport_eq_some_iff, List.mem_zipIdx_iff_getElem?]
  constructor
  · rintro ⟨v, j, hv, rfl, hkey, hrow⟩
    obtain ⟨hlt, -⟩ := List.getElem?_eq_some_iff.1 hv
    exact ⟨hlt, v, (List.getElem?_append_left hlt).trans hv, hkey, hrow⟩
  · rintro ⟨hlt, v, hv, hkey, hrow⟩
    exact ⟨v, i, (List.getElem?_append_left hlt).symm.trans hv, rfl, hkey, hrow⟩

/-- Settles O15: the refused load leaves REFUSED, from which no step is made. -/
theorem missingBreakRefusesTheLoad : Obligations.MissingBreakRefusesTheLoad := by
  intro config ws h
  rw [afterReset_of_noBreak config ws h]
  exact ⟨rfl, rfl, rfl⟩

/-- Settles O17, by the reset values every load gives and those a BREAK adds. -/
theorem resetStartsAtTheFirstWord : Obligations.ResetStartsAtTheFirstWord := by
  intro config ws b hb
  obtain ⟨hseen, hlength, -, -⟩ := loadedProgramEndsAtTheFirstBreak ws b hb
  obtain ⟨hpos, hcycle, htrace, hconfig⟩ := afterReset_counters config ws
  obtain ⟨hrun, hprog, hdm⟩ := afterReset_of_breakSeen config hseen
  have hpc : (State.afterReset config ws).pc = 96 := by rw [pc_eq, hpos]; rfl
  have hbreak : (State.afterReset config ws).breakIndex = b := by
    rw [State.breakIndex, hprog, hlength]
    omega
  exact ⟨afterReset_readReg config ws, hpos, hpc, hcycle, hrun, htrace, hconfig, hbreak, hprog, hdm⟩

/-- Settles O19: the record stands at its position in a loaded program, and a placed one where it is put. -/
theorem fetchGivesTheDecodedWord : Obligations.FetchGivesTheDecodedWord := by
  refine ⟨fun ws b p w s hb hp hw hprog hpos => ?loaded, fun s w => ?placed⟩
  case loaded =>
    obtain ⟨-, -, hrecords, -⟩ := loadedProgramEndsAtTheFirstBreak ws b hb
    refine fetch_of_getElem? hpos ?_
    rw [hprog, hrecords p w hp hw, pc_eq, hpos]
  case placed =>
    rw [withFetchWord_toNat]
    exact ⟨fetch_placeWord w s, rfl, watchdogExpired_placeWord w s⟩

end Sys2Proof.Proofs
end

section
/-! PROOFS. The instructions (spec/42 to spec/46) and the registers they read and write (spec/10_state.md R23).
First the one update each instruction makes, as data, so that two states can be given the same update, and what
that update depends on; then the ends of the memory accesses, then the statements. -/

namespace Sys2Proof.Machine

/-! ### The update an instruction makes -/

/-- The updates of the state `exec` chooses from, with everything the choice has computed. -/
inductive Action where
  /-- Move the position. -/
  | moves (delta : Int)
  /-- Write one register and go on to the next position. -/
  | writes (rd : RegIdx) (v : Word)
  /-- Store one word and go on to the next position. -/
  | stores (a : Nat) (v : Word)
  /-- End the run in a fault. -/
  | faults (cause : Cause)
  /-- End the run. -/
  | halts

/-- An update made. -/
def Action.apply : Action → State → State
  | .moves delta, s => advance delta s
  | .writes rd v, s => advance 1 (writeReg rd v s)
  | .stores a v, s => advance 1 (storeWord a v s)
  | .faults cause, s => raise cause s
  | .halts, s => halt s

/-- The update of LDUR, by the answer of its checked load (R201). -/
def loadAction (rt : RegIdx) : Except Cause Word → Action
  | .error cause => .faults cause
  | .ok v => .writes rt v

/-- The update of STUR, by its address check (R202). -/
def storeAction (ea : Int) (v : Word) : Action :=
  match addressCheck ea with
  | some cause => .faults cause
  | none => .stores ea.toNat v

/-- The update of each instruction. -/
def action (i : Instr) (s : State) : Action :=
  match i with
  | .b offset => .moves (sint offset)
  | .and rm _ rn rd => .writes rd (readReg rn s &&& readReg rm s)
  | .add rm _ rn rd => .writes rd (sumOf (readReg rn s) (readReg rm s))
  | .addi imm rn rd => .writes rd (sumOf (readReg rn s) imm)
  | .orr rm _ rn rd => .writes rd (readReg rn s ||| readReg rm s)
  | .cbz offset cond => .moves (if condZero cond s then sint offset else 1)
  | .cbnz offset cond => .moves (if condZero cond s then 1 else sint offset)
  | .sub rm _ rn rd => .writes rd (differenceOf (readReg rn s) (readReg rm s))
  | .subi imm rn rd => .writes rd (differenceOf (readReg rn s) imm)
  | .movz _ _ _ => .moves 1
  | .lsr _ shamt _ rd => .writes rd (shiftRightLogical (readReg rd s) shamt)
  | .lsl _ shamt _ rd => .writes rd (shiftLeft (readReg rd s) shamt)
  | .asr _ shamt _ rd => .writes rd (shiftRightArith (readReg rd s) shamt)
  | .eor rm _ rn rd => .writes rd (readReg rn s ^^^ readReg rm s)
  | .movk _ _ _ => .moves 1
  | .stur dtaddr _ rn rt => storeAction (effectiveAddress rn dtaddr s) (readReg rt s)
  | .ldur dtaddr _ rn rt => loadAction rt (memRead (effectiveAddress rn dtaddr s) s)
  | .nop => .moves 1
  | .brk => .halts

/-- `exec` makes the update of the instruction, in every state. -/
theorem exec_eq_action (i : Instr) (s : State) : exec i s = .next ((action i s).apply s) := by
  cases i with
  | ldur dtaddr op2 rn rt =>
    simp only [exec, execLdur, action]
    cases memRead (effectiveAddress rn dtaddr s) s <;> rfl
  | stur dtaddr op2 rn rt =>
    simp only [exec, execStur, action, memWrite, storeAction]
    cases addressCheck (effectiveAddress rn dtaddr s) <;> rfl
  | _ => rfl

/-- The same, from a given outcome. -/
theorem eq_apply_of_exec {i : Instr} {s t : State} (h : exec i s = .next t) :
    t = (action i s).apply s := by
  rw [exec_eq_action] at h
  cases h
  rfl

/-- The effective address depends on the base register alone (R200). -/
theorem effectiveAddress_congr {rn : RegIdx} (dtaddr : BitVec 9) {s t : State}
    (h : readReg rn t = readReg rn s) : effectiveAddress rn dtaddr t = effectiveAddress rn dtaddr s := by
  rw [effectiveAddress, effectiveAddress, h]

/-- The update depends on the registers of the read set, on data memory and on LOAD_UNDEFINED only (R23). -/
theorem action_congr {i : Instr} {s t : State} (hregs : ∀ r ∈ readsOf i, readReg r t = readReg r s)
    (hdm : t.dm = s.dm) (hload : t.config.loadUndefined = s.config.loadUndefined) :
    action i t = action i s := by
  cases i with
  | ldur dtaddr op2 rn rt =>
    have hbase : readReg rn t = readReg rn s := hregs rn (by simp [readsOf])
    simp only [action, effectiveAddress_congr dtaddr hbase, memRead_congr _ hdm hload]
  | stur dtaddr op2 rn rt =>
    have hbase : readReg rn t = readReg rn s := hregs rn (by simp [readsOf])
    have hvalue : readReg rt t = readReg rt s := hregs rt (by simp [readsOf])
    simp only [action, effectiveAddress_congr dtaddr hbase, hvalue]
  | cbz offset cond | cbnz offset cond =>
    have hcond : readReg cond t = readReg cond s := hregs cond (by simp [readsOf])
    have hzero : condZero cond t = condZero cond s := by rw [condZero, condZero, hcond]
    simp only [action]
    rw [hzero]
  | addi imm rn rd | subi imm rn rd =>
    have hn : readReg rn t = readReg rn s := hregs rn (by simp [readsOf])
    simp only [action, hn]
  | lsr rm shamt rn rd | lsl rm shamt rn rd | asr rm shamt rn rd =>
    have hd : readReg rd t = readReg rd s := hregs rd (by simp [readsOf])
    simp only [action, hd]
  | and rm shamt rn rd | add rm shamt rn rd | orr rm shamt rn rd | sub rm shamt rn rd
  | eor rm shamt rn rd =>
    have hn : readReg rn t = readReg rn s := hregs rn (by simp [readsOf])
    have hm : readReg rm t = readReg rm s := hregs rm (by simp [readsOf])
    simp only [action, hn, hm]
  | b offset | movz shiftcode field rd | movk shiftcode field rd | nop | brk => rfl

/-- An instruction with a register in its write set writes that register or faults (R23). -/
theorem action_of_mem_writesOf {i : Instr} {r : RegIdx} (h : r ∈ writesOf i) (s : State) :
    (∃ v, action i s = .writes r v) ∨ ∃ cause, action i s = .faults cause := by
  cases i with
  | ldur dtaddr op2 rn rt =>
    obtain rfl : r = rt := by simpa [writesOf] using h
    simp only [action]
    cases memRead (effectiveAddress rn dtaddr s) s with
    | error cause => exact .inr ⟨cause, rfl⟩
    | ok v => exact .inl ⟨v, rfl⟩
  | addi imm rn rd | subi imm rn rd | lsr rm shamt rn rd | lsl rm shamt rn rd | asr rm shamt rn rd
  | and rm shamt rn rd | add rm shamt rn rd | orr rm shamt rn rd | sub rm shamt rn rd
  | eor rm shamt rn rd =>
    obtain rfl : r = rd := by simpa [writesOf] using h
    exact .inl ⟨_, rfl⟩
  | b offset | cbz offset cond | cbnz offset cond | movz shiftcode field rd | movk shiftcode field rd
  | stur dtaddr op2 rn rt | nop | brk => simp [writesOf] at h

/-- What an update does to position, data memory and run state does not depend on the registers. -/
theorem Action.apply_withRegs (a : Action) (s : State) (regs' : Vector Word 32) :
    (a.apply { s with regs := regs' }).pos = (a.apply s).pos ∧
    (a.apply { s with regs := regs' }).dm = (a.apply s).dm ∧
    (a.apply { s with regs := regs' }).run = (a.apply s).run := by
  cases a <;> exact ⟨rfl, rfl, rfl⟩

/-- The same update keeps two RUNNING states the same to the program, and stops them alike. -/
theorem Action.apply_sameToProgram (a : Action) {s t : State} (h : sameToProgram s t)
    (hs : s.run = .running) (ht : t.run = .running) :
    sameToProgram (a.apply s) (a.apply t) ∧ sameStop (a.apply s).run (a.apply t).run := by
  obtain ⟨hregs, hpos, hdm, hprog⟩ := h
  cases a with
  | moves delta => simp [Action.apply, sameToProgram, sameStop, *]
  | writes rd v => simp [Action.apply, sameToProgram, sameStop, *]
  | stores ea v => simp [Action.apply, sameToProgram, sameStop, *]
  | faults cause => simp [Action.apply, sameToProgram, sameStop, pc_eq, *]
  | halts => simp [Action.apply, sameToProgram, sameStop, *]

/-- An instruction does the same to two RUNNING states that are the same to the program (R27, R32). -/
theorem exec_sameToProgram {i : Instr} {s t s' : State} (h : sameToProgram s t)
    (hload : t.config.loadUndefined = s.config.loadUndefined) (hs : s.run = .running)
    (ht : t.run = .running) (he : exec i s = .next s') :
    ∃ t', exec i t = .next t' ∧ sameToProgram s' t' ∧ sameStop s'.run t'.run := by
  obtain rfl := eq_apply_of_exec he
  have ⟨hregs, _, hdm, _⟩ := h
  have hread : ∀ r ∈ readsOf i, readReg r t = readReg r s := fun r _ => by
    rw [readReg, readReg, hregs]
  have hact : action i t = action i s := action_congr hread hdm.symm hload
  exact ⟨_, exec_eq_action i t, hact ▸ Action.apply_sameToProgram _ h hs ht⟩

/-- Run states that stop alike are RUNNING, and HALTED, together. -/
theorem sameStop.iff {a b : RunState} (h : sameStop a b) :
    (a = .running ↔ b = .running) ∧ (a = .halted ↔ b = .halted) := by
  cases a <;> cases b <;> simp [sameStop] at h ⊢

/-! ### The memory accesses -/

section Access
variable {dtaddr : BitVec 9} {rn : RegIdx} {s : State} (op2 : BitVec 2) (rt : RegIdx)

/-- LDUR whose load answers a word completes with it (R201). -/
theorem exec_ldur_of_ok {v : Word} (h : memRead (effectiveAddress rn dtaddr s) s = .ok v) :
    exec (.ldur dtaddr op2 rn rt) s = .next (advance 1 (writeReg rt v s)) := by
  simp [exec, execLdur, h, doneWriting]

/-- LDUR whose load fails ends the run (R158, R201). -/
theorem exec_ldur_of_error {cause : Cause}
    (h : memRead (effectiveAddress rn dtaddr s) s = .error cause) :
    exec (.ldur dtaddr op2 rn rt) s = .next (raise cause s) := by
  simp [exec, execLdur, h, doneFaulting]

/-- STUR at an address that passes the check stores (R202). -/
theorem exec_stur_of_legal (h : addressCheck (effectiveAddress rn dtaddr s) = none) :
    exec (.stur dtaddr op2 rn rt) s =
      .next (advance 1 (storeWord (effectiveAddress rn dtaddr s).toNat (readReg rt s) s)) := by
  simp [exec, execStur, memWrite, h, done]

/-- STUR at an address that fails the check ends the run (R158, R202). -/
theorem exec_stur_of_illegal {cause : Cause}
    (h : addressCheck (effectiveAddress rn dtaddr s) = some cause) :
    exec (.stur dtaddr op2 rn rt) s = .next (raise cause s) := by
  simp [exec, execStur, memWrite, h, doneFaulting]

end Access

/-- A load at an address that fails the check answers the cause (R53). -/
theorem memRead_of_illegal {ea : Int} {s : State} {cause : Cause} (h : addressCheck ea = some cause) :
    memRead ea s = .error cause := by simp [memRead, h]

/-- A load of a defined word answers it (R55). -/
theorem memRead_of_defined {ea : Int} {s : State} {v : Word} (h : addressCheck ea = none)
    (hv : memGet s.dm ea.toNat = some v) : memRead ea s = .ok v := by simp [memRead, h, hv]

/-- A load of an undefined word answers what LOAD_UNDEFINED says (R55). -/
theorem memRead_of_undefined {ea : Int} {s : State} (h : addressCheck ea = none)
    (hv : memGet s.dm ea.toNat = none) :
    (s.config.loadUndefined = .zero → memRead ea s = .ok 0) ∧
    (s.config.loadUndefined = .fault → memRead ea s = .error (.undefinedLoad ea)) :=
  ⟨fun hz => by simp [memRead, h, hv, hz], fun hf => by simp [memRead, h, hv, hf]⟩

/-! ### Shifts -/

/-- An arithmetic shift by the whole width or more leaves copies of the sign (R194). -/
theorem sshiftRight_of_le (v : Word) {n : Nat} (h : 32 ≤ n) :
    v.sshiftRight n = if v.toInt < 0 then -1 else 0 := by
  apply BitVec.eq_of_getLsbD_eq
  intro k hk
  have hout : ¬ n + k < 32 := by omega
  rw [BitVec.getLsbD_sshiftRight, if_neg hout, BitVec.msb_eq_toInt]
  split
  next hneg =>
    have hones : (-1 : Word) = BitVec.allOnes 32 := by decide
    rw [hones, BitVec.getLsbD_allOnes]
    simp [hneg, hk]
  next hpos => simp [hpos]

end Sys2Proof.Machine

namespace Sys2Proof.Proofs

open Sys2Proof.Machine

/-- Settles O40: the update is the same, since it depends on the read set only, and writes one register. -/
theorem registerFootprintIsTheTable : Obligations.RegisterFootprintIsTheTable := by
  intro i s t regs' _ he hreads
  have hexec : exec i { s with regs := regs' } =
      .next ((action i s).apply { s with regs := regs' }) := by
    rw [exec_eq_action, action_congr hreads rfl rfl]
  obtain ⟨hpos, hdm, hrun⟩ := Action.apply_withRegs (action i s) s regs'
  obtain rfl := eq_apply_of_exec he
  refine ⟨fun r => exec_readReg he, _, hexec, hpos, hdm, hrun, fun hgoing r hr => ?written,
    fun r => exec_readReg hexec⟩
  case written =>
    rcases action_of_mem_writesOf hr s with ⟨v, hact⟩ | ⟨cause, hact⟩
    · simp [hact, Action.apply]
    · simp [hact, Action.apply] at hgoing

/-- Settles O41: `exec` does not look at the ignored fields, and the rows NOP and BREAK slice none. -/
theorem ignoredFieldsDoNotMatter : Obligations.IgnoredFieldsDoNotMatter := by
  refine ⟨fun _ _ _ _ _ _ => ⟨rfl, rfl, rfl, rfl, rfl⟩, fun _ _ _ _ _ _ _ => ⟨rfl, rfl, rfl⟩,
    fun _ _ _ _ _ _ => ⟨rfl, rfl⟩, fun _ _ _ _ _ _ _ => ⟨rfl, rfl⟩, fun w w' hkey hrow => ?_⟩
  have hdec : ∀ m : Mnemonic, (cls (keyOf w)).1 = some m → sliceAs m w = sliceAs m w' →
      dec w = dec w' := fun m hm hslice => by
    rw [dec_of_cls hm, dec_of_cls (hkey ▸ hm), hslice]
  rcases hrow with h | h
  · exact hdec .NOP (by rw [h]; rfl) rfl
  · exact hdec .BREAK ((cls_break_iff _).2 h) rfl

/-- Settles O42: both are the one write at the end of the instruction. -/
theorem addAndSubWriteTheWrappedResult : Obligations.AddAndSubWriteTheWrappedResult :=
  fun _ _ _ _ _ =>
    ⟨⟨_, rfl, completesWriting_of_write _ _ _⟩, ⟨_, rfl, completesWriting_of_write _ _ _⟩⟩

/-- Settles O43: the library's bitwise operations, bit by bit. -/
theorem logicActsBitByBit : Obligations.LogicActsBitByBit := fun _ _ _ _ _ =>
  ⟨⟨_, _, rfl, completesWriting_of_write _ _ _, fun _ _ => BitVec.getLsbD_and⟩,
    ⟨_, _, rfl, completesWriting_of_write _ _ _, fun _ _ => BitVec.getLsbD_or⟩,
    ⟨_, _, rfl, completesWriting_of_write _ _ _, fun _ _ => BitVec.getLsbD_xor⟩⟩

/-- Settles O44: both are the one write at the end of the instruction. -/
theorem addiAndSubiUseTheSignedImmediate : Obligations.AddiAndSubiUseTheSignedImmediate :=
  fun _ _ _ _ =>
    ⟨⟨_, rfl, completesWriting_of_write _ _ _⟩, ⟨_, rfl, completesWriting_of_write _ _ _⟩⟩

/-- Settles O45: the values are the library's sum and difference, whose unsigned readings are known; the
signed ones are the integers narrowed, which keeps those in range. -/
theorem sumsAgreeSignedAndUnsigned : Obligations.SumsAgreeSignedAndUnsigned := by
  intro a b
  refine ⟨?_, ?_, fun hlo hhi => ?_, fun hlo hhi => ?_⟩
  · rw [sumOf_eq_add, uint_eq, BitVec.toNat_add]
  · rw [differenceOf_eq_sub, uint_eq, BitVec.toNat_sub, Nat.add_comm]
  · exact BitVec.toInt_ofInt_eq_self (by decide) hlo hhi
  · exact BitVec.toInt_ofInt_eq_self (by decide) hlo hhi

/-- Settles O46: the shifted values are the library's shifts, bit by bit. -/
theorem shiftsMoveTheBitsOfTheirDestination : Obligations.ShiftsMoveTheBitsOfTheirDestination := by
  intro rm shamt rn rd s
  refine ⟨⟨_, _, rfl, completesWriting_of_write _ _ _, fun k hk => ?lsl⟩,
    ⟨_, _, rfl, completesWriting_of_write _ _ _, fun k hk => ?lsr⟩,
    ⟨_, _, rfl, completesWriting_of_write _ _ _, fun k hk => ?asr⟩⟩
  case lsl =>
    rw [shiftLeft_eq, BitVec.getLsbD_shiftLeft, decide_eq_true hk, Bool.true_and, ← decide_not]
    simp only [Nat.not_lt]
  case lsr => rw [shiftRightLogical_eq, BitVec.getLsbD_ushiftRight, Nat.add_comm]
  case asr =>
    have hin : ¬ 32 ≤ k := by omega
    rw [shiftRightArith_eq, BitVec.getLsbD_sshiftRight, decide_eq_false hin, Bool.not_false,
      Bool.true_and, BitVec.msb_eq_getLsbD_last, Nat.add_comm k]
    split
    · rw [Nat.min_eq_left (by omega)]
    · rw [Nat.min_eq_right (by omega)]

/-- Settles O47, by the library's shifts: past the width, by nothing, and of a clear sign. -/
theorem wideShiftsClearOrFill : Obligations.WideShiftsClearOrFill := by
  intro v shamt
  rw [shiftLeft_eq, shiftRightLogical_eq, shiftRightArith_eq]
  refine ⟨fun hwide => ⟨BitVec.shiftLeft_eq_zero hwide, BitVec.ushiftRight_eq_zero hwide,
    sshiftRight_of_le v hwide⟩, fun hzero => ?none, fun hpos => ?nonneg⟩
  case none =>
    rw [hzero]
    exact ⟨BitVec.shiftLeft_zero v, BitVec.ushiftRight_zero v, BitVec.sshiftRight_zero⟩
  case nonneg =>
    have hmsb : v.msb = false := by
      rw [BitVec.msb_eq_toInt]
      exact decide_eq_false (not_lt.2 hpos)
    exact BitVec.sshiftRight_eq_of_msb_false hmsb

/-- Settles O48, by the two ways the load answers a word. -/
theorem loadWritesTheWordAtTheAddress : Obligations.LoadWritesTheWordAtTheAddress := by
  intro dtaddr op2 rn rt s v hlegal hv
  have hcheck := (addressCheck_eq_none_iff _).2 hlegal
  have hread : memRead (effectiveAddress rn dtaddr s) s = .ok v := by
    rcases hv with hv | ⟨hnone, hzero, rfl⟩
    · exact memRead_of_defined hcheck hv
    · exact (memRead_of_undefined hcheck hnone).1 hzero
  exact ⟨rfl, _, exec_ldur_of_ok op2 rt hread, completesWriting_of_write rt v s⟩

/-- Settles O49, by the rules of a memory write. -/
theorem storeSetsTheOneWord : Obligations.StoreSetsTheOneWord := by
  intro dtaddr op2 rn rt s hlegal
  exact ⟨rfl, _, exec_stur_of_legal op2 rt ((addressCheck_eq_none_iff _).2 hlegal),
    ⟨memGet_memPut_same _ _ _, fun _ hne => memGet_memPut_other _ hne _⟩, fun _ => rfl,
    ⟨rfl, rfl, rfl, rfl, rfl⟩, rfl⟩

/-- Settles O50: the check names the cause, and both accesses make it before anything else. -/
theorem badAddressesFaultInOrder : Obligations.BadAddressesFaultInOrder := by
  intro dtaddr op2 rn rt s
  refine ⟨fun hillegal => ?illegal, fun hlegal hnone hfault => ?undefined⟩
  case illegal =>
    have hcheck := addressCheck_of_illegal _ (mt (addressCheck_eq_none_iff _).1 hillegal)
    exact ⟨⟨_, exec_ldur_of_error op2 rt (memRead_of_illegal hcheck), rfl⟩,
      ⟨_, exec_stur_of_illegal op2 rt hcheck, rfl⟩⟩
  case undefined =>
    have hcheck := (addressCheck_eq_none_iff _).2 hlegal
    exact ⟨_, exec_ldur_of_error op2 rt ((memRead_of_undefined hcheck hnone).2 hfault), rfl⟩

/-- Settles O51: the store did not fault, so its address is legal and holds the word. -/
theorem loadReadsBackTheStoredWord : Obligations.LoadReadsBackTheStoredWord := by
  intro dtaddr dtaddr' op2 op2' rn rt rn' rt' s t u _ hstore hrun hea hkept
  rcases execStur_cases dtaddr op2 rn rt s with ⟨cause, _, _, hfault⟩ | ⟨hcheck, hdone⟩
  · cases hfault.symm.trans hstore
    cases hrun
  · cases hdone.symm.trans hstore
    rw [advance_dm, storeWord_dm, memGet_memPut_same, ← hea] at hkept
    exact ⟨_, exec_ldur_of_ok op2' rt' (memRead_of_defined (hea ▸ hcheck) hkept),
      readReg_writeReg_same _ _ _⟩

/-- Settles O52: the branch is the one move of the position. -/
theorem branchMovesByItsOffset : Obligations.BranchMovesByItsOffset :=
  fun _ _ => ⟨_, rfl, completesMoving_of_advance _ _⟩

/-- Settles O53: the test of the branches is that the unsigned reading is 0. -/
theorem conditionalBranchesTestTheRegister : Obligations.ConditionalBranchesTestTheRegister := by
  intro offset cond s
  simp only [← condZero_iff]
  exact ⟨⟨_, rfl, completesMoving_of_advance _ _⟩, ⟨_, rfl, completesMoving_of_advance _ _⟩⟩

/-- Settles O54: the three are the move to the next position. -/
theorem movesAndNopOnlyAdvance : Obligations.MovesAndNopOnlyAdvance :=
  fun _ _ _ _ => ⟨⟨_, rfl, completesMoving_of_advance _ _⟩,
    ⟨_, rfl, completesMoving_of_advance _ _⟩, ⟨_, rfl, completesMoving_of_advance _ _⟩⟩

end Sys2Proof.Proofs
end

section
/-! PROOFS. The step (spec/41_execution_cycle.md, spec/60_exceptions.md): its answer in each case of R159, then
where in a program BREAK stands, then the statements. -/

namespace Sys2Proof.Machine

/-! ### The answer of a step (R159) -/

section Answers
variable {s : State}

/-- 1a: outside the program. -/
theorem step_of_fetch_none (hs : s.run = .running) (hf : fetch s = none) :
    step s = .next (raise .positionRange s) := by
  simp [step, engineStep, hs, runCycle, hf]

/-- 1c: at BREAK, before the watchdog. -/
theorem step_of_isBreak (hs : s.run = .running) {r : Record} (hf : fetch s = some r)
    (hbreak : r.isBreak = true) : step s = .next (halt s) := by
  simp [step, engineStep, hs, runCycle, hf, hbreak, exec_brk]

/-- 1d: at any other record once the watchdog has expired. -/
theorem step_of_expired (hs : s.run = .running) {r : Record} (hf : fetch s = some r)
    (hbreak : r.isBreak = false) (hexpired : watchdogExpired s = true) :
    step s = .next (raise .watchdog s) := by
  simp [step, engineStep, hs, runCycle, hf, hbreak, runRecord, hexpired]

/-- 1e: at INVALID. -/
theorem step_of_invalid (hs : s.run = .running) {r : Record} (hf : fetch s = some r) {key : Key}
    (hbody : r.body = .invalid key) (halive : watchdogExpired s = false) :
    step s = .next (raise .invalidInstruction s) := by
  have hbreak : r.isBreak = false := by simp [Record.isBreak, hbody]
  simp [step, engineStep, hs, runCycle, hf, hbreak, runRecord, halive, hbody]

/-- 2 to 4: at an instruction, counted and traced where it leaves the engine RUNNING. -/
theorem step_of_instr (hs : s.run = .running) {r : Record} {i : Instr} (hf : fetch s = some r)
    (hbody : r.body = .instr i) (hgo : i = .brk ∨ watchdogExpired s = false) {u : State}
    (he : exec i s = .next u) :
    step s = .next (if u.run = .running then retire s.pc r u else u) := by
  by_cases hi : i = .brk
  · subst hi
    obtain rfl : halt s = u := Host.Outcome.next.inj ((exec_brk s).symm.trans he)
    rw [step_of_isBreak hs hf ((isBreak_iff r).2 hbody), if_neg (by simp)]
  · have hbreak : r.isBreak = false := by
      rw [Bool.eq_false_iff, ne_eq, isBreak_iff, hbody]
      simpa using hi
    have halive : watchdogExpired s = false := hgo.resolve_left hi
    simp only [step, engineStep, hs, runCycle, hf, hbreak, runRecord, halive, hbody, he,
      retireIfRunning, Bool.false_eq_true, if_false]
    cases hu : u.run <;> simp

/-- An engine that is not RUNNING answers a fault (R28, R266). -/
theorem step_of_stopped (hs : s.run ≠ .running) : ∃ f, step s = .fault f := by
  unfold step engineStep
  cases h : s.run with
  | running => exact absurd h hs
  | halted => exact ⟨_, rfl⟩
  | faulted _ => exact ⟨_, rfl⟩
  | refused _ => exact ⟨_, rfl⟩

end Answers

/-! ### The BREAK of a program (R30) -/

/-- In a program with one BREAK at its end, a record is BREAK exactly when it is the last. -/
theorem isBreak_iff_last {rs : List Record} (h : endsInOneBreak rs = true) {k : Nat} {r : Record}
    (hr : rs[k]? = some r) : r.isBreak = true ↔ k + 1 = rs.length := by
  induction rs generalizing k with
  | nil => cases h
  | cons r0 rs ih =>
    cases rs with
    | nil =>
      cases k with
      | zero =>
        obtain rfl : r0 = r := by simpa using hr
        simpa [endsInOneBreak] using h
      | succ k => simp at hr
    | cons r1 rs =>
      obtain ⟨hfirst, hrest⟩ : r0.isBreak = false ∧ endsInOneBreak (r1 :: rs) = true := by
        simpa [endsInOneBreak] using h
      cases k with
      | zero =>
        obtain rfl : r0 = r := by simpa using hr
        simp [hfirst]
      | succ k =>
        rw [ih hrest (by simpa using hr), List.length_cons (a := r0)]
        omega

/-- A fetch from a loaded program gives BREAK exactly at position `b`. -/
theorem fetch_isBreak_iff {s : State} (h : progWf s.prog = true) {r : Record} (hf : fetch s = some r) :
    r.isBreak = true ↔ s.pos = s.breakIndex := by
  obtain ⟨hlo, hhi, hr⟩ := fetch_eq_some hf
  obtain ⟨-, hends⟩ := Bool.and_eq_true_iff.1 h
  rw [isBreak_iff_last hends hr]
  unfold State.breakIndex
  omega

/-! ### The invariant taken apart -/

/-- The parts of the invariant (R27, R31, R153). -/
theorem stateInv_iff (s : State) :
    StateInv s = true ↔ memWf s.dm = true ∧ s.trace.length = s.cycle ∧
      tracedFrom 0 s.trace = true ∧ withinBound s = true ∧ runStateWf s = true := by
  simp [StateInv, and_assoc]

/-- A RUNNING state with the invariant has a loaded program. -/
theorem progWf_of_stateInv {s : State} (h : StateInv s = true) (hs : s.run = .running) :
    progWf s.prog = true := by
  obtain ⟨-, -, -, -, hrun⟩ := (stateInv_iff s).1 h
  simpa [runStateWf, hs] using hrun

end Sys2Proof.Machine

namespace Sys2Proof.Proofs

open Sys2Proof.Machine

/-- Settles O18: `exec` always answers a next state, which is counted and traced while RUNNING. -/
theorem stepRunsTheFetchedInstruction : Obligations.StepRunsTheFetchedInstruction := by
  intro s r i hs hf hbody hgo
  obtain ⟨u, hu, -⟩ := exec_effect i s
  rw [step_of_instr hs hf hbody hgo hu, hu]
  dsimp only
  split <;> rfl

/-- Settles O20: the format BREAK is that of the record which halts, and it stands at 0 where the first
input word is BREAK. -/
theorem breakHaltsAndChangesNothingElse : Obligations.BreakHaltsAndChangesNothingElse := by
  refine ⟨fun s r hs hf hformat => step_of_isBreak hs hf ((format_eq_break_iff r).1 hformat),
    fun config ws hb => ?_⟩
  obtain ⟨-, hpos, -, -, hrun, -, -, -, hprog, -⟩ := resetStartsAtTheFirstWord config ws 0 hb
  obtain ⟨w, hw, hkey⟩ := hb.1
  have hfetch := fetchGivesTheDecodedWord.1 ws 0 0 w _ hb (le_refl 0) hw hprog hpos
  exact step_of_isBreak hrun hfetch ((recordOf_isBreak_iff _ w).2 hkey)

/-- Settles O21: the format INVALID is that of a record without an instruction. -/
theorem invalidRecordFaultsWhenFetched : Obligations.InvalidRecordFaultsWhenFetched := by
  intro s r hs hf hformat halive
  obtain ⟨key, hbody⟩ := (format_eq_invalid_iff r).1 hformat
  exact ⟨_, step_of_invalid hs hf hbody halive, rfl⟩

/-- Settles O22: there the fetch gives no record. -/
theorem positionOutsideTheProgramFaults : Obligations.PositionOutsideTheProgramFaults :=
  fun s hs hpos => step_of_fetch_none hs ((fetch_eq_none s).2 hpos)

/-- Settles O23: the bound reached is the watchdog expired. -/
theorem watchdogStopsAllButBreak : Obligations.WatchdogStopsAllButBreak := by
  intro s r n hs hf hformat hmax hle
  have hbreak : r.isBreak = false :=
    Bool.eq_false_of_not_eq_true (mt (format_eq_break_iff r).2 hformat)
  have hexpired : watchdogExpired s = true := by
    rw [← Bool.not_eq_false, watchdogExpired_eq_false_iff]
    exact fun halive => absurd (halive n hmax) (not_lt.2 hle)
  exact ⟨_, step_of_expired hs hf hbreak hexpired, rfl⟩

/-- Settles O24, by the three other run states. -/
theorem stoppedEngineTakesNoStep : Obligations.StoppedEngineTakesNoStep :=
  fun _ hs => step_of_stopped hs

/-- Settles O25, by the outcomes of a step. -/
theorem runningEngineAlwaysHasANextState : Obligations.RunningEngineAlwaysHasANextState := by
  intro s hs
  obtain ⟨t, ht, -⟩ := step_running hs
  exact ⟨t, ht⟩

/-- Settles O26: a step counts exactly where it completes, the first from 0; and states that differ in the
counter are the same to the program. -/
theorem cycleCountsCompletedInstructions : Obligations.CycleCountsCompletedInstructions := by
  refine ⟨fun config ws _ _ => ?reset, fun s t h => ⟨fun ht => ?counts, fun ht => ?stops⟩,
    fun config ws t h ht => ?first, fun i s t n he hs => ?unread⟩
  case reset =>
    obtain ⟨-, hcycle, -, -⟩ := afterReset_counters config ws
    exact hcycle
  case counts =>
    obtain ⟨hcycle, -⟩ := (traceTakesOneRecordPerInstruction s t h).1 ht
    exact hcycle
  case stops =>
    rcases (step_cases h).2.retires_or_stops with ⟨_, _, u, -, -, -, going, rfl⟩ | ⟨-, hsame⟩
    · exact absurd going ht
    · rw [hsame]
  case first =>
    obtain ⟨-, hcycle, htrace, -⟩ := afterReset_counters config ws
    obtain ⟨-, r, -, htrace'⟩ := (traceTakesOneRecordPerInstruction _ t h).1 ht
    rw [htrace', htrace, hcycle]
    rfl
  case unread =>
    obtain ⟨u, hu, hsame, hstop⟩ :=
      exec_sameToProgram (s := s) (t := { s with cycle := n }) ⟨rfl, rfl, rfl, rfl⟩ rfl hs hs he
    exact ⟨u, hu, hsame, hstop.iff.1.symm⟩

/-- Settles O28, by the outcomes of a step: each that leaves FAULTED is a `raise`. -/
theorem faultChangesOnlyTheRunState : Obligations.FaultChangesOnlyTheRunState := by
  intro s t record h ht
  have hraise : ∀ cause, t = raise cause s →
      t = { s with run := .faulted record } ∧ record.address = s.pc ∧ record.cycle = s.cycle + 1 := by
    rintro cause rfl
    cases ht
    exact ⟨rfl, rfl, rfl⟩
  cases (step_cases h).2 with
  | position _ => exact hraise _ rfl
  | halts _ _ _ => cases ht
  | watchdog _ _ _ _ => exact hraise _ rfl
  | invalid _ _ _ _ _ => exact hraise _ rfl
  | faults _ _ _ _ _ _ _ _ => exact hraise _ rfl
  | completes _ _ _ _ _ u _ going => cases going.symm.trans ht

/-- Settles O29: the fetch looks at the program store and the position only. -/
theorem programStoreIsNeverWritten : Obligations.ProgramStoreIsNeverWritten := by
  intro s t h
  obtain ⟨hprog, hconfig⟩ := step_keeps h
  exact ⟨hprog, hconfig, fun p => fetch_congr hprog rfl⟩

/-- Settles O30, by the ways an instruction and a step can end. -/
theorem onlyLoadsAndStoresRaiseFaults : Obligations.OnlyLoadsAndStoresRaiseFaults := by
  refine ⟨fun i s t record hs he ht => ?instruction, fun s t record h ht => ?step⟩
  case instruction =>
    rcases exec_next_effect he with ⟨_, rfl⟩ | ⟨_, _, rfl⟩ | ⟨_, _, _, rfl⟩ |
      ⟨cause, _, access, rfl⟩ | ⟨_, rfl⟩
    · cases hs.symm.trans ht
    · cases hs.symm.trans ht
    · cases hs.symm.trans ht
    · cases ht
      refine ⟨access.imp_right And.left, fun ea hcause => access.resolve_right ?_⟩
      rintro ⟨-, haddress⟩
      cases hcause
      cases haddress
    · cases ht
  case step =>
    cases (step_cases h).2 with
    | position _ => cases ht; simp
    | halts _ _ _ => cases ht
    | watchdog _ _ _ _ => cases ht; simp
    | invalid _ _ _ _ _ => cases ht; simp
    | faults _ _ _ _ _ cause memory _ =>
      cases ht
      rintro rfl
      cases memory
    | completes _ _ _ _ _ u _ going => cases going.symm.trans ht

/-- Settles O31: the step that halts has fetched a BREAK, which stands at `b` alone. -/
theorem haltIsReachedOnlyAtTheBreak : Obligations.HaltIsReachedOnlyAtTheBreak := by
  intro s t hinv h ht
  obtain ⟨hs, hcase⟩ := step_cases h
  have hprog := progWf_of_stateInv hinv hs
  cases hcase with
  | position _ => cases ht
  | halts r hf hbreak =>
    exact ⟨(fetch_isBreak_iff hprog hf).1 hbreak, r, hf, (format_eq_break_iff r).2 hbreak⟩
  | watchdog _ _ _ _ => cases ht
  | invalid _ _ _ _ _ => cases ht
  | faults _ _ _ _ _ _ _ _ => cases ht
  | completes _ _ _ _ _ u _ going => cases going.symm.trans ht

end Sys2Proof.Proofs
end

section
/-! PROOFS. The invariant of the state (spec/10_state.md R27 to R31, spec/41_execution_cycle.md R153, R156):
each of its parts under a step, then under a load; and data memory determined by its reads. -/

namespace Sys2Proof.Machine

/-! ### The invariant under a step -/

/-- Every instruction keeps data memory in canonical form: a store passes the address check (R53). -/
theorem exec_keeps_memWf {i : Instr} {s t : State} (he : exec i s = .next t)
    (h : memWf s.dm = true) : memWf t.dm = true := by
  rcases exec_next_effect he with ⟨_, rfl⟩ | ⟨_, _, rfl⟩ | ⟨ea, v, legal, rfl⟩ | ⟨_, _, _, rfl⟩ |
    ⟨_, rfl⟩
  · exact h
  · exact h
  · obtain ⟨hlo, -, haligned⟩ := (addressCheck_eq_none ea).1 legal
    exact memWf_memPut _ _ _ (by omega) h
  · exact h
  · exact h

/-- A further trace record continues the numbering when it carries the next number. -/
theorem tracedFrom_append_singleton (n : Nat) (trace : List TraceRecord) (last : TraceRecord) :
    tracedFrom n (trace ++ [last]) = true ↔
      tracedFrom n trace = true ∧ last.cycle = n + trace.length + 1 := by
  induction trace generalizing n with
  | nil => simp [tracedFrom]
  | cons first trace ih =>
    have hnumber : n + 1 + trace.length = n + (trace.length + 1) := by omega
    simp [tracedFrom, ih, and_assoc, hnumber]

/-- The bound is kept exactly while no more than MAX_CYCLES instructions have completed (R153). -/
theorem withinBound_iff (s : State) :
    withinBound s = true ↔ ∀ n, s.config.maxCycles = some n → s.cycle ≤ n := by
  unfold withinBound
  cases s.config.maxCycles <;> simp

/-- A step that ends the run keeps the invariant when the new run state agrees with the rest. -/
theorem stateInv_of_stop {s t : State} (h : StateInv s = true) (hsame : t = { s with run := t.run })
    (hrun : runStateWf t = true) : StateInv t = true := by
  obtain ⟨hmem, hlength, htraced, hbound, -⟩ := (stateInv_iff s).1 h
  rw [stateInv_iff]
  exact ⟨by rw [hsame]; exact hmem, by rw [hsame]; exact hlength, by rw [hsame]; exact htraced,
    by rw [hsame]; exact hbound, hrun⟩

/-- A fault keeps the invariant: its record holds the present address and the next cycle number (R252). -/
theorem stateInv_raise {s : State} (h : StateInv s = true) (hs : s.run = .running) (cause : Cause) :
    StateInv (raise cause s) = true := by
  have hpc : (raise cause s).pc = s.pc := rfl
  exact stateInv_of_stop h rfl (by simp [runStateWf, progWf_of_stateInv h hs, hpc])

/-- The halt at position `b` keeps the invariant (R152). -/
theorem stateInv_halt {s : State} (h : StateInv s = true) (hs : s.run = .running)
    (hpos : s.pos = s.breakIndex) : StateInv (halt s) = true := by
  have hbreak : (halt s).breakIndex = s.breakIndex := rfl
  exact stateInv_of_stop h rfl (by simp [runStateWf, progWf_of_stateInv h hs, hpos, hbreak])

/-- An instruction that completes before the bound, counted and traced, keeps the invariant (R156). -/
theorem stateInv_retire {i : Instr} {s u : State} (h : StateInv s = true) (hs : s.run = .running)
    (halive : watchdogExpired s = false) (he : exec i s = .next u) (hu : u.run = .running) (pc : Int)
    (r : Record) : StateInv (retire pc r u) = true := by
  obtain ⟨hmem, hlength, htraced, -, -⟩ := (stateInv_iff s).1 h
  obtain ⟨hprog, hconfig, hcycle, htrace⟩ := exec_keeps he
  have hmem' : memWf u.dm = true := exec_keeps_memWf he hmem
  rw [stateInv_iff, withinBound_iff, retire_trace, tracedFrom_append_singleton, htrace, retire_cycle,
    retire_config, hconfig, hcycle]
  refine ⟨hmem', by simp [hlength], ⟨htraced, by simp [hlength]⟩,
    (watchdogExpired_eq_false_iff s).1 halive, ?_⟩
  simp [runStateWf, hu, hprog, progWf_of_stateInv h hs]

/-! ### The invariant under a load -/

/-- The records of consecutive words are well-formed from their first position on (R126). -/
theorem recordsFrom_recordsOf (i : Nat) (ws : List Word) :
    recordsFrom i (recordsOf i ws) = true := by
  induction ws generalizing i with
  | nil => rfl
  | cons w ws ih =>
    have hrest := ih (i + 1)
    rw [Nat.cast_add, Nat.cast_one] at hrest
    simp [recordsOf, recordsFrom, hrest, recordOf]

/-- The records of words up to a first BREAK are a program (R30). -/
theorem progWf_recordsOf {pre : List Word} {w : Word} (hw : keyOf w = 2038)
    (hpre : ∀ x ∈ pre, keyOf x ≠ 2038) : progWf (recordsOf 0 (pre ++ [w])) = true :=
  Bool.and_eq_true_iff.2 ⟨recordsFrom_recordsOf 0 _, endsInOneBreak_recordsOf 0 hw hpre⟩

/-- With nothing counted and nothing traced, the invariant is that of data memory and the run state. -/
theorem stateInv_of_fresh {s : State} (hcycle : s.cycle = 0) (htrace : s.trace = [])
    (hmem : memWf s.dm = true) (hrun : runStateWf s = true) : StateInv s = true := by
  rw [stateInv_iff, withinBound_iff, htrace, hcycle]
  exact ⟨hmem, rfl, rfl, fun n _ => n.zero_le, hrun⟩

/-! ### Data memory by its reads (R31) -/

/-- The parts of the canonical form of a memory that is not empty. -/
theorem memWf_cons_iff (c : Nat × Word) (cs : Memory) :
    memWf (c :: cs) = true ↔ c.1 % 4 = 0 ∧ aboveAll c.1 cs = true ∧ memWf cs = true := by
  simp [memWf, and_assoc]

/-- The first address of a canonical memory is the least defined one. -/
theorem memGet_lt_first {c : Nat × Word} {cs : Memory} (h : memWf (c :: cs) = true) {a : Nat}
    (ha : a < c.1) : memGet (c :: cs) a = none := by
  obtain ⟨-, habove, -⟩ := (memWf_cons_iff c cs).1 h
  rw [memGet, if_neg (Nat.ne_of_gt ha), memGet_none_of_aboveAll cs ha.le habove]

/-- The first address of a memory is defined. -/
theorem memGet_first (c : Nat × Word) (cs : Memory) : memGet (c :: cs) c.1 = some c.2 := by
  simp [memGet]

/-- The rest of a canonical memory reads as the whole, but not at the first address. -/
theorem memGet_rest {c : Nat × Word} {cs : Memory} (h : memWf (c :: cs) = true) (a : Nat) :
    memGet cs a = if a = c.1 then none else memGet (c :: cs) a := by
  obtain ⟨-, habove, -⟩ := (memWf_cons_iff c cs).1 h
  split
  next ha => exact memGet_none_of_aboveAll cs ha.le habove
  next ha => rw [memGet, if_neg (Ne.symm ha)]

/-- Canonical memories that read alike have the same first cell. -/
theorem first_eq_of_reads {c d : Nat × Word} {cs ds : Memory} (hc : memWf (c :: cs) = true)
    (hd : memWf (d :: ds) = true) (h : ∀ a, memGet (c :: cs) a = memGet (d :: ds) a) : c = d := by
  have hread_c := (h c.1).symm.trans (memGet_first c cs)
  have hread_d := (h d.1).trans (memGet_first d ds)
  have haddress : c.1 = d.1 := by
    rcases Nat.lt_trichotomy c.1 d.1 with hlt | heq | hgt
    · cases (memGet_lt_first hd hlt).symm.trans hread_c
    · exact heq
    · cases (memGet_lt_first hc hgt).symm.trans hread_d
  rw [haddress, memGet_first] at hread_c
  exact Prod.ext haddress (Option.some.inj hread_c).symm

end Sys2Proof.Machine

namespace Sys2Proof.Proofs

open Sys2Proof.Machine

/-- Settles O33, by the outcomes of a step: a fault, the halt at `b`, or a completed instruction. -/
theorem everyStepKeepsTheInvariant : Obligations.EveryStepKeepsTheInvariant := by
  intro s t hinv h
  obtain ⟨hs, hcase⟩ := step_cases h
  cases hcase with
  | position _ => exact stateInv_raise hinv hs _
  | halts r hf hbreak =>
    exact stateInv_halt hinv hs ((fetch_isBreak_iff (progWf_of_stateInv hinv hs) hf).1 hbreak)
  | watchdog _ _ _ _ => exact stateInv_raise hinv hs _
  | invalid _ _ _ _ _ => exact stateInv_raise hinv hs _
  | faults _ _ _ _ _ cause _ _ => exact stateInv_raise hinv hs cause
  | completes r _ i _ halive u eff going => exact stateInv_retire hinv hs halive eff going s.pc r

/-- Settles O35: a load with a BREAK leaves a program, one without leaves none. -/
theorem everyLoadGivesTheInvariant : Obligations.EveryLoadGivesTheInvariant := by
  intro config ws
  obtain ⟨-, hcycle, htrace, -⟩ := afterReset_counters config ws
  refine stateInv_of_fresh hcycle htrace ?memory ?runState <;>
    rcases firstBreakAt_or_none ws with ⟨b, hb⟩ | hnone
  case memory.inl =>
    obtain ⟨pre, w, post, rfl, -, hw, hpre⟩ := split_of_firstBreakAt hb
    rw [afterReset_of_break config pre post w hw hpre]
    exact memWf_putWords [] _ post rfl
  case memory.inr => rw [afterReset_of_noBreak config ws hnone]; rfl
  case runState.inl =>
    obtain ⟨pre, w, post, rfl, -, hw, hpre⟩ := split_of_firstBreakAt hb
    rw [afterReset_of_break config pre post w hw hpre]
    exact progWf_recordsOf hw hpre
  case runState.inr => rw [afterReset_of_noBreak config ws hnone]; rfl

/-- Settles O34: `State.reset` is the load of the empty input. -/
theorem resetStateHasTheInvariant : Obligations.ResetStateHasTheInvariant :=
  ⟨rfl, everyLoadGivesTheInvariant {} []⟩

/-- Settles O36, by induction on the cells: the first cells agree, and the rests read alike. -/
theorem equalReadsMeanEqualMemories : Obligations.EqualReadsMeanEqualMemories := by
  intro m
  induction m with
  | nil =>
    intro n _ _ h
    cases n with
    | nil => rfl
    | cons d ds => cases (h d.1).trans (memGet_first d ds)
  | cons c cs ih =>
    intro n hm hn h
    cases n with
    | nil => cases (memGet_first c cs).symm.trans (h c.1)
    | cons d ds =>
      obtain rfl := first_eq_of_reads hm hn h
      have hrest : ∀ a, memGet cs a = memGet ds a := fun a => by
        rw [memGet_rest hm, memGet_rest hn, h]
      obtain ⟨-, -, hcs⟩ := (memWf_cons_iff c cs).1 hm
      obtain ⟨-, -, hds⟩ := (memWf_cons_iff c ds).1 hn
      rw [ih ds hcs hds hrest]

end Sys2Proof.Proofs
end

section
/-! PROOFS. Whole runs (spec/41_execution_cycle.md R153, R161, R162, spec/70_reset_and_hazards.md R285,
R286), what the counter and the trace do not reach (spec/10_state.md R27, R32), and the trace block
(spec/47_rendering_and_trace.md R235). -/

namespace Sys2Proof.Machine

/-! ### A run under the watchdog (R153) -/

/-- An instruction completes only before the bound, and is one nearer to it afterwards. -/
theorem step_below_bound {s t : State} {n : Nat} (h : step s = .next t) (ht : t.run = .running)
    (hmax : s.config.maxCycles = some n) : s.cycle < n ∧ t.cycle = s.cycle + 1 := by
  cases (step_cases h).2 with
  | position _ => cases ht
  | halts _ _ _ => cases ht
  | watchdog _ _ _ _ => cases ht
  | invalid _ _ _ _ _ => cases ht
  | faults _ _ _ _ _ _ _ _ => cases ht
  | completes r _ _ _ halive u eff _ =>
    obtain ⟨-, -, hcycle, -⟩ := exec_keeps eff
    exact ⟨(watchdogExpired_eq_false_iff s).1 halive n hmax, by rw [retire_cycle, hcycle]⟩

/-- A run with a bound leaves RUNNING, by induction on how far the bound is away. -/
theorem bounded_run_ends {left n : Nat} {s : State} (hs : s.run = .running)
    (hmax : s.config.maxCycles = some n) (hleft : n - s.cycle ≤ left) :
    ∃ k t, k ≤ left + 1 ∧ RunsTo s k t ∧ t.run ≠ .running := by
  induction left generalizing s with
  | zero =>
    obtain ⟨t, ht, -⟩ := step_running hs
    refine ⟨1, t, le_rfl, ⟨t, ht, rfl⟩, fun hgoing => ?_⟩
    obtain ⟨hlt, -⟩ := step_below_bound ht hgoing hmax
    omega
  | succ left ih =>
    obtain ⟨t, ht, -⟩ := step_running hs
    by_cases hgoing : t.run = .running
    · obtain ⟨-, hcycle⟩ := step_below_bound ht hgoing hmax
      obtain ⟨k, u, hk, hrun, hu⟩ := ih hgoing (by rw [(step_keeps ht).2, hmax]) (by omega)
      exact ⟨k + 1, u, by omega, ⟨t, ht, hrun⟩, hu⟩
    · exact ⟨1, t, by omega, ⟨t, ht, rfl⟩, hgoing⟩

/-! ### A straight line to the BREAK (R285) -/

/-- What an instruction of a straight line leaves: the next position, all else as it was for the fetch. -/
theorem exec_straightLine {i : Instr} (h : straightLine i = true) (s : State) :
    ∃ u, exec i s = .next u ∧ u.run = s.run ∧ u.dm = s.dm ∧ u.pos = s.pos + 1 := by
  cases i with
  | b _ | cbz _ _ | cbnz _ _ | stur _ _ _ _ | ldur _ _ _ _ | brk => cases h
  | _ => exact ⟨_, rfl, rfl, rfl, rfl⟩

/-- Every record from the position up to `b` is an instruction of a straight line. -/
def straightToBreak (s : State) : Prop :=
  ∀ p r, s.pos ≤ p → p < s.breakIndex → fetch { s with pos := p } = some r →
    ∃ i, r.body = .instr i ∧ straightLine i = true

/-- A step within a straight line completes its instruction. -/
theorem step_straightLine {s : State} (hs : s.run = .running) (hmax : s.config.maxCycles = none)
    (hlo : 0 ≤ s.pos) (hhi : s.pos < s.breakIndex) (hline : straightToBreak s) :
    ∃ t, step s = .next t ∧ t.run = .running ∧ t.pos = s.pos + 1 ∧ t.cycle = s.cycle + 1 ∧
      t.dm = s.dm := by
  obtain ⟨r, hf⟩ := fetch_of_inside hlo hhi.le
  obtain ⟨i, hbody, hstraight⟩ := hline s.pos r le_rfl hhi hf
  obtain ⟨u, hu, hrun, hdm, hpos⟩ := exec_straightLine hstraight s
  have halive := watchdogExpired_of_unset hmax
  have hgoing : u.run = .running := hrun.trans hs
  obtain ⟨-, -, hcycle, -⟩ := exec_keeps hu
  have hstep := step_of_instr hs hf hbody (.inr halive) hu
  rw [if_pos hgoing] at hstep
  exact ⟨_, hstep, hgoing, hpos, by rw [retire_cycle, hcycle], hdm⟩

/-- A straight line runs to its BREAK, by induction on the distance. -/
theorem straight_run_halts {d : Nat} {s : State} (hprog : progWf s.prog = true)
    (hs : s.run = .running) (hmax : s.config.maxCycles = none) (hlo : 0 ≤ s.pos)
    (hd : s.breakIndex = s.pos + d) (hline : straightToBreak s) :
    ∃ t, RunsTo s (d + 1) t ∧ t.run = .halted ∧ t.pos = s.breakIndex ∧ t.cycle = s.cycle + d ∧
      t.dm = s.dm := by
  induction d generalizing s with
  | zero =>
    obtain ⟨r, hf⟩ := fetch_of_inside hlo (by omega)
    have hbreak : r.isBreak = true := (fetch_isBreak_iff hprog hf).2 (by omega)
    exact ⟨halt s, ⟨_, step_of_isBreak hs hf hbreak, rfl⟩, rfl, by rw [halt_pos]; omega, rfl, rfl⟩
  | succ d ih =>
    obtain ⟨u, hu, hgoing, hpos, hcycle, hdm⟩ := step_straightLine hs hmax hlo (by omega) hline
    obtain ⟨hprogu, hconfig⟩ := step_keeps hu
    have hbreak : u.breakIndex = s.breakIndex := by rw [State.breakIndex, State.breakIndex, hprogu]
    have hline' : straightToBreak u := fun p r hp hlt hf =>
      hline p r (by omega) (by omega)
        ((fetch_congr (s := { s with pos := p }) (t := { u with pos := p }) hprogu rfl).symm.trans hf)
    obtain ⟨t, hrun, hhalt, htpos, htcycle, htdm⟩ := ih (by rw [hprogu]; exact hprog) hgoing
      (by rw [hconfig]; exact hmax) (by omega) (by omega) hline'
    exact ⟨t, ⟨u, hu, hrun⟩, hhalt, by rw [htpos, hbreak], by omega, by rw [htdm, hdm]⟩

/-! ### States that are the same to the program (R27, R32) -/

/-- The same cause raised in states that are the same to the program. -/
theorem raise_sameToProgram {s t : State} (h : sameToProgram s t) (hs : s.run = .running)
    (ht : t.run = .running) (cause : Cause) :
    sameToProgram (raise cause s) (raise cause t) ∧
      sameStop (raise cause s).run (raise cause t).run :=
  Action.apply_sameToProgram (.faults cause) h hs ht

/-- Counting and tracing, where both states are RUNNING, reach neither the program nor the run state. -/
theorem retire_sameToProgram {u v : State} (h : sameToProgram u v) (hstop : sameStop u.run v.run)
    (pc pc' : Int) (r : Record) :
    sameToProgram (if u.run = .running then retire pc r u else u)
        (if v.run = .running then retire pc' r v else v) ∧
      sameStop (if u.run = .running then retire pc r u else u).run
        (if v.run = .running then retire pc' r v else v).run := by
  by_cases hu : u.run = .running
  · rw [if_pos hu, if_pos (hstop.iff.1.1 hu)]
    exact ⟨h, hstop⟩
  · rw [if_neg hu, if_neg (mt hstop.iff.1.2 hu)]
    exact ⟨h, hstop⟩

/-- Without a watchdog, RUNNING states that are the same to the program step alike. -/
theorem step_sameToProgram {s t s' : State} (hs : s.run = .running) (ht : t.run = .running)
    (h : sameToProgram s t) (hmax : s.config.maxCycles = none) (hconfig : t.config = s.config)
    (hstep : step s = .next s') :
    ∃ t', step t = .next t' ∧ sameToProgram s' t' ∧ sameStop s'.run t'.run := by
  have ⟨_, hpos, _, hprog⟩ := h
  have hfetch : fetch t = fetch s := fetch_congr hprog.symm hpos.symm
  have hs_alive := watchdogExpired_of_unset hmax
  have ht_alive : watchdogExpired t = false := watchdogExpired_of_unset (by rw [hconfig, hmax])
  cases hf : fetch s with
  | none =>
    obtain rfl := Host.Outcome.next.inj (hstep.symm.trans (step_of_fetch_none hs hf))
    exact ⟨_, step_of_fetch_none ht (hfetch.trans hf), raise_sameToProgram h hs ht _⟩
  | some r =>
    cases hbody : r.body with
    | invalid key =>
      obtain rfl := Host.Outcome.next.inj (hstep.symm.trans (step_of_invalid hs hf hbody hs_alive))
      exact ⟨_, step_of_invalid ht (hfetch.trans hf) hbody ht_alive, raise_sameToProgram h hs ht _⟩
    | instr i =>
      obtain ⟨u, hu, -⟩ := exec_effect i s
      obtain ⟨v, hv, hsame, hstop⟩ := exec_sameToProgram h (by rw [hconfig]) hs ht hu
      obtain rfl := Host.Outcome.next.inj
        (hstep.symm.trans (step_of_instr hs hf hbody (.inr hs_alive) hu))
      exact ⟨_, step_of_instr ht (hfetch.trans hf) hbody (.inr ht_alive) hv,
        retire_sameToProgram hsame hstop _ _ r⟩

/-! ### The register rows of a trace block (R235) -/

/-- A row within the 32 registers has 8 entries. -/
theorem registerRow_length (label : String) {first : Nat} (h : first + 8 ≤ 32)
    (regs : Vector Word 32) : (registerRow label first regs).2.length = 8 := by
  simp [registerRow]
  omega

/-- A list of 32 in four rows of 8. -/
theorem four_rows_flatten {α : Type} (xs : List α) (h : xs.length = 32) :
    xs.take 8 ++ ((xs.drop 8).take 8 ++ ((xs.drop 16).take 8 ++ (xs.drop 24).take 8)) = xs := by
  have hlast : (xs.drop 24).take 8 = xs.drop 24 := List.take_of_length_le (by simp [h])
  have hrow : ∀ n, (xs.drop n).take 8 ++ xs.drop (n + 8) = xs.drop n := fun n => by
    rw [← List.drop_drop, List.take_append_drop]
  rw [hlast, hrow 16, hrow 8, List.take_append_drop]

end Sys2Proof.Machine

namespace Sys2Proof.Proofs

open Sys2Proof.Machine

/-- Settles O37: the distance from the bound is `n - s.cycle`. -/
theorem boundedRunEnds : Obligations.BoundedRunEnds :=
  fun _ _ hs hmax => bounded_run_ends hs hmax le_rfl

/-- Settles O38, at the distance of the position from `b`. -/
theorem straightLineRunHaltsAtTheBreak : Obligations.StraightLineRunHaltsAtTheBreak := by
  intro s hinv hs hmax hlo hhi hline
  obtain ⟨t, hrun, hhalt, hpos, hcycle, hdm⟩ :=
    straight_run_halts (d := (s.breakIndex - s.pos).toNat) (progWf_of_stateInv hinv hs) hs hmax hlo
      (by omega) hline
  exact ⟨t, hrun, hhalt, hpos, hcycle, fun a => by rw [hdm]⟩

/-- Settles O39: states that are the same to the program step alike. -/
theorem cycleAndTraceAreInvisibleToTheProgram : Obligations.CycleAndTraceAreInvisibleToTheProgram := by
  intro s t s' hs ht hsame hmax hconfig hstep
  obtain ⟨t', ht', hsame', hstop⟩ := step_sameToProgram hs ht hsame hmax hconfig hstep
  exact ⟨t', ht', hsame', hstop.iff.1, hstop.iff.2, hstop⟩

/-- Settles O56: four rows tile the registers, and the memory rows are those of `memoryRowsFrom`. -/
theorem traceBlockShowsTheRecord : Obligations.TraceBlockShowsTheRecord := by
  intro t
  refine ⟨rfl, rfl, rfl, rfl, ?lengths, ?registers, memoryRowsFrom_flatten _ _ (by simp),
    fun k row => memoryRowsFrom_row _ _ k row⟩
  case lengths =>
    simp only [traceBlock, List.forall_mem_cons]
    exact ⟨registerRow_length _ (by decide) _, registerRow_length _ (by decide) _,
      registerRow_length _ (by decide) _, registerRow_length _ (by decide) _, by simp⟩
  case registers =>
    have hrows := four_rows_flatten t.regs.toList (by simp)
    simp only [traceBlock, registerRow, List.map_cons, List.map_nil, List.flatten_cons,
      List.flatten_nil, List.append_nil, List.drop_zero, ← List.map_append, hrows]

end Sys2Proof.Proofs
end
